-- ==== Sys2Proof/Word.lean ====
section
/-! DEFINITION. The two word types of the core (spec/00_scope.md R7, R10): a memory cell and an 8-bit
register are a `Byte`, an address and the program counter are a `Word`. Both are unsigned; their
addition and subtraction are those of `BitVec`, modulo 256 and modulo 65536. -/

namespace Sys2Proof

/-- `DATA_WIDTH` = 8: a memory cell, `A`, `X`, `Y`, and (`SP_WIDTH`) `SP` (R7). -/
abbrev Byte := BitVec 8

/-- `ADDR_WIDTH` = `PC_WIDTH` = 16: an address, and the program counter (R7). -/
abbrev Word := BitVec 16

/-- `CYC_WIDTH` = 32 bits, signed two's complement: the argument of `execute` (R7, R166). -/
abbrev Budget := BitVec 32

end Sys2Proof
end

