-- ==== Sys2Proof/Machine/Alu.lean ====
section
/-! DEFINITION. `6502_alu`: the modular arithmetic of spec/40_addressing_modes.md R103 to R106, and the
byte-order and extension helpers of spec/00_scope.md R10, R12. R117: there is nothing else. -/

namespace Sys2Proof.Machine

/-- `v[7:0]` of a 16-bit value (R10). -/
def loByte (v : Word) : Byte := v.extractLsb' 0 8

/-- `v[15:8]` of a 16-bit value (R10). -/
def hiByte (v : Word) : Byte := v.extractLsb' 8 8

/-- `hi8:lo8` = `hi8*256 + lo8` (R10, R58, R82). -/
def wordOf (hi lo : Byte) : Word := hi ++ lo

/-- `zext_16` (R12). -/
def zext16 (v : Byte) : Word := v.setWidth 16

/-- The address of the cell that an integer computed as an address names: taken modulo 65536
(spec/20_memory.md R51). -/
def addrOf (n : Int) : Word := BitVec.ofInt 16 n

/-- `inc16(a) = (a + 1) mod 65536` (R103). -/
def inc16 (a : Word) : Word := a + 1

/-- `dec16(a) = (a - 1) mod 65536` (R103). -/
def dec16 (a : Word) : Word := a - 1

/-- `add8(a, b) = (a + b) mod 256`, the carry out discarded (R104). -/
def add8 (a b : Byte) : Byte := a + b

/-- `inc8(a) = (a + 1) mod 256`, used by no implemented instruction (R106). -/
def inc8 (a : Byte) : Byte := a + 1

/-- `dec8(a) = (a - 1) mod 256` (R106). -/
def dec8 (a : Byte) : Byte := a - 1

/-- The page-boundary-crossed test: the carry out of the low-byte add, and nothing else (R105, R115). -/
def pageCrossed (base : Word) (idx : Byte) : Bool :=
  decide ((loByte base).toNat + idx.toNat > 0xFF)

/-- `addidx(base, idx)`: the 16-bit indexed add, with the low-byte carry (R105). -/
def addIdx (base : Word) (idx : Byte) : Word × Bool :=
  (base + zext16 idx, pageCrossed base idx)

end Sys2Proof.Machine
end

