-- ==== Sys2Proof/Config.lean ====
section
/-! DEFINITION. The implementation parameters of spec/00_scope.md R7, each with the value this hardware
takes. The machine has no free value: spec/00_scope.md R9 says that nothing in it is non-deterministic. -/

namespace Sys2Proof

/-- `RESET_POLICY` (R7): where reset takes the entry point from (R201, R202). -/
inductive ResetPolicy where
  /-- the entry point is the constant `RESET_VECTOR_ADDR` (R201) -/
  | direct
  /-- the entry point is the little-endian word stored at `RESET_VECTOR_ADDR` (R202) -/
  | vectorIndirect
  deriving DecidableEq, Repr

/-- `RESET_POLICY` = `direct` (R7, R201; the spec's decision D1; log entry 1). -/
def Config.resetPolicy : ResetPolicy := .direct

/-- `RESET_VECTOR_ADDR` = 0xFFFC (R7). -/
def Config.resetVectorAddr : Word := 0xFFFC

/-- `STACK_BASE` = 0x0100 (R7, R24; the spec's decision D4; log entry 2). -/
def Config.stackBase : Word := 0x0100

/-- `SP_RESET` = 0xFF (R7, R36; the spec's decision D3; log entry 2). -/
def Config.spReset : Byte := 0xFF

/-- The content of every cell after `init`, which is what an unlisted address reads as (R36, R56). -/
def Config.initByte : Byte := 0x00

/-- `OPC_LDA_IMM` (R7, R85, R86; the spec's decision D5; log entry 3, as for the six that follow). -/
def Config.opcLdaImm : Byte := 0xA9
/-- `OPC_LDA_ZP` (R85). -/
def Config.opcLdaZp : Byte := 0xA5
/-- `OPC_LDA_ZPX` (R85). -/
def Config.opcLdaZpx : Byte := 0xB5
/-- `OPC_LDA_ABS` (R85). -/
def Config.opcLdaAbs : Byte := 0xAD
/-- `OPC_LDA_ABX` (R85). -/
def Config.opcLdaAbx : Byte := 0xBD
/-- `OPC_LDA_ABY` (R85). -/
def Config.opcLdaAby : Byte := 0xB9
/-- `OPC_JSR` (R85). -/
def Config.opcJsr : Byte := 0x20

/-- The least value of the 32-bit signed cycle counter (R33). -/
def Config.cycMin : Int := -2147483648
/-- The greatest value of the 32-bit signed cycle counter (R33). -/
def Config.cycMax : Int := 2147483647

end Sys2Proof
end

