-- ==== Sys2Proof/Syntax.lean ====
section
/-! DEFINITION. The instructions: one constructor per row of spec/opcode_table.json (spec/30_encoding.md
R85, R92), with the operand as R82 assembles it. -/

namespace Sys2Proof

/-- The seven implemented instructions and the catch-all row of the opcode table. -/
inductive Instr where
  /-- load-accumulator-immediate, `LDA #$nn`, format `OP_IMM8` (R121) -/
  | ldaImm (imm8 : Byte)
  /-- load-accumulator-zero-page, `LDA $nn`, format `OP_ZP8` (R122) -/
  | ldaZp (zp8 : Byte)
  /-- load-accumulator-zero-page-indexed-by-X, `LDA $nn,X`, format `OP_ZP8` (R123) -/
  | ldaZpx (zp8 : Byte)
  /-- load-accumulator-absolute, `LDA $hhll`, format `OP_ABS16` (R124) -/
  | ldaAbs (abs16 : Word)
  /-- load-accumulator-absolute-indexed-by-X, `LDA $hhll,X`, format `OP_ABS16` (R125) -/
  | ldaAbx (abs16 : Word)
  /-- load-accumulator-absolute-indexed-by-Y, `LDA $hhll,Y`, format `OP_ABS16` (R126) -/
  | ldaAby (abs16 : Word)
  /-- jump-to-subroutine, `JSR $hhll`, format `OP_ABS16` (R141) -/
  | jsr (target : Word)
  /-- the catch-all row `UNKNOWN`: an opcode byte with no descriptor, pseudo-format `OP_ONLY` (R92, R181) -/
  | unknown (opcode : Byte)
  deriving DecidableEq, Repr

end Sys2Proof
end

