-- ==== Sys2Proof/WellFormed.lean ====
section
/-! DEFINITION. Which terms of `Instr` are instructions of the machine. Every operand value of the seven
implemented instructions is legal (spec/40_addressing_modes.md R107, R113, R127); the catch-all row
stands for the 249 bytes that are none of the seven opcodes (spec/30_encoding.md R87). -/

namespace Sys2Proof

/-- The seven `OPC_*` values, in the order of the opcode table (R85). -/
def Config.opcodes : List Byte :=
  [Config.opcLdaImm, Config.opcLdaZp, Config.opcLdaZpx, Config.opcLdaAbs, Config.opcLdaAbx,
   Config.opcLdaAby, Config.opcJsr]

/-- The one check: an `unknown` instruction carries a byte that is not an implemented opcode (R87). -/
def Instr.wellFormed : Instr → Bool
  | .ldaImm _ => true
  | .ldaZp _ => true
  | .ldaZpx _ => true
  | .ldaAbs _ => true
  | .ldaAbx _ => true
  | .ldaAby _ => true
  | .jsr _ => true
  | .unknown opcode => !Config.opcodes.contains opcode

end Sys2Proof
end

