-- ==== Sys2Proof/Decode.lean ====
section
/-! DEFINITION. `6502_decoder` (spec/30_encoding.md R80 to R92): the descriptor table, the decoder, and
the encoder written from the same table. -/

namespace Sys2Proof

open Sys2Proof.Machine

/-- The addressing modes of a descriptor (spec/40_addressing_modes.md R114). -/
inductive Mode where
  | imm | zp | zpx | abs | abx | aby | jsrabs
  deriving DecidableEq, Repr

/-- The three formats of an implemented instruction (R81). -/
inductive Format where
  | opImm8 | opZp8 | opAbs16
  deriving DecidableEq, Repr

/-- The handler a descriptor selects (R85; spec/00_scope.md R17). -/
inductive Handler where
  | lda | jsr
  deriving DecidableEq, Repr

/-- The instruction descriptor `(mode, base_cycles, handler)` (R84). `baseCycles` is stated for checking
only: no cycle is charged from it (spec/43_execution_engine.md R154). -/
structure Descriptor where
  mode : Mode
  baseCycles : Nat
  handler : Handler
  deriving DecidableEq, Repr

/-- Why a list of bytes is not a whole instruction. The machine's fetch never meets either. -/
inductive DecodeError where
  /-- there is no opcode byte -/
  | noOpcode
  /-- the opcode's operand bytes are missing -/
  | missingOperand (opcode : Byte)
  deriving DecidableEq, Repr

/-- The descriptor table, row by row (R85). -/
def descriptorTable : List (Byte × Descriptor) :=
  [(Config.opcLdaImm, ⟨.imm, 2, .lda⟩),
   (Config.opcLdaZp, ⟨.zp, 3, .lda⟩),
   (Config.opcLdaZpx, ⟨.zpx, 4, .lda⟩),
   (Config.opcLdaAbs, ⟨.abs, 4, .lda⟩),
   (Config.opcLdaAbx, ⟨.abx, 4, .lda⟩),
   (Config.opcLdaAby, ⟨.aby, 4, .lda⟩),
   (Config.opcJsr, ⟨.jsrabs, 6, .jsr⟩)]

/-- The decoder's look-up, on the whole opcode byte (R84). -/
def descriptor (opcode : Byte) : Option Descriptor :=
  descriptorTable.lookup opcode

/-- The format that goes with a mode (R81, R85). -/
def formatOf : Mode → Format
  | .imm => .opImm8
  | .zp => .opZp8
  | .zpx => .opZp8
  | .abs => .opAbs16
  | .abx => .opAbs16
  | .aby => .opAbs16
  | .jsrabs => .opAbs16

/-- How many operand bytes a mode fetches (R83). -/
def operandBytes (m : Mode) : Nat :=
  match formatOf m with
  | .opImm8 => 1
  | .opZp8 => 1
  | .opAbs16 => 2

/-- How many operand bytes follow an opcode byte; none after an unknown opcode (R83). -/
def operandCount (opcode : Byte) : Nat :=
  match descriptor opcode with
  | some d => operandBytes d.mode
  | none => 0

/-- The instruction of a mode, from its operand bytes in address order (R81, R82). -/
def instrOf (m : Mode) (b1 b2 : Byte) : Instr :=
  match m with
  | .imm => .ldaImm b1
  | .zp => .ldaZp b1
  | .zpx => .ldaZpx b1
  | .abs => .ldaAbs (wordOf b2 b1)
  | .abx => .ldaAbx (wordOf b2 b1)
  | .aby => .ldaAby (wordOf b2 b1)
  | .jsrabs => .jsr (wordOf b2 b1)

/-- The instruction at three consecutive bytes: total on all 256 opcode bytes (R88); operand bytes that
the opcode does not have are ignored. -/
def decodeBytes (b0 b1 b2 : Byte) : Instr :=
  match descriptor b0 with
  | some d => instrOf d.mode b1 b2
  | none => .unknown b0

/-- Decoding a list of bytes: the instruction at its head and the bytes after it, or why there is none. -/
def decode : List Byte → Except DecodeError (Instr × List Byte)
  | [] => .error .noOpcode
  | b0 :: rest =>
    if rest.length < operandCount b0 then .error (.missingOperand b0)
    else .ok (decodeBytes b0 (rest.getD 0 0) (rest.getD 1 0), rest.drop (operandCount b0))

/-- The bytes of format `OP_ABS16`: opcode, `lo8`, `hi8` (R81). -/
def absBytes (opcode : Byte) (v : Word) : List Byte := [opcode, loByte v, hiByte v]

/-- The bytes of an instruction, in address order (R81, R85, R92). -/
def encode : Instr → List Byte
  | .ldaImm v => [Config.opcLdaImm, v]
  | .ldaZp z => [Config.opcLdaZp, z]
  | .ldaZpx z => [Config.opcLdaZpx, z]
  | .ldaAbs a => absBytes Config.opcLdaAbs a
  | .ldaAbx a => absBytes Config.opcLdaAbx a
  | .ldaAby a => absBytes Config.opcLdaAby a
  | .jsr t => absBytes Config.opcJsr t
  | .unknown opcode => [opcode]

/-- The length of an instruction in bytes: 2 or 3 (R80, R85); the one byte that is consumed for an
unknown opcode (R92). -/
def Instr.length : Instr → Nat
  | .ldaImm _ => 2
  | .ldaZp _ => 2
  | .ldaZpx _ => 2
  | .ldaAbs _ => 3
  | .ldaAbx _ => 3
  | .ldaAby _ => 3
  | .jsr _ => 3
  | .unknown _ => 1

/-- Byte `k` of an instruction whose bits, numbered as the opcode table numbers them, are the low
`nbits` bits of `w`; every bit above them is 0. -/
def tableByte (nbits w k : Nat) : Byte :=
  BitVec.ofNat 8 ((w % 2 ^ nbits) / 2 ^ (8 * k))

/-- The instruction this decoder reads from those bits, laid out as three bytes of memory. -/
def decodeTableWord (nbits w : Nat) : Option Instr :=
  match decode [tableByte nbits w 0, tableByte nbits w 1, tableByte nbits w 2] with
  | .ok (i, _) => some i
  | .error _ => none

end Sys2Proof
end

