-- ==== Sys2Proof/Machine/State.lean ====
section
/-! DEFINITION. The state of the core, its memory and its host port (spec/10_state.md), as plain data,
and the state right after reset (spec/10_state.md R36). -/

namespace Sys2Proof.Machine

/-- The seven one-bit flags, each its own state element; there is no packed status byte (R28, R30). -/
structure Flags where
  /-- `F.C`, carry -/
  c : Bool
  /-- `F.Z`, zero -/
  z : Bool
  /-- `F.I`, interrupt-disable; no function (R29) -/
  i : Bool
  /-- `F.D`, decimal; no function (R29) -/
  d : Bool
  /-- `F.B`, break; no function (R29) -/
  b : Bool
  /-- `F.V`, overflow -/
  v : Bool
  /-- `F.N`, negative -/
  n : Bool
  deriving DecidableEq, Repr

/-- The control state `fsm` of `instruction_dispatch_fsm` (R31). -/
inductive Fsm where
  /-- after reset, no run started -/
  | idle
  /-- inside a run, about to read (or reading) an opcode byte -/
  | fetching
  /-- inside an instruction: looking up the handler -/
  | dispatching
  /-- inside an instruction: resolver and handler execution -/
  | runningHandler
  /-- the run ended because the cycle counter is zero or negative -/
  | halted
  /-- an unknown opcode was dispatched -/
  | haltedWithError
  deriving DecidableEq, Repr

/-- What the fault record holds when it is not `none` (R32). -/
inductive FaultRecord where
  | unknownOpcode (opcode : Byte) (faultPc : Word)
  deriving DecidableEq, Repr

/-- The 8-bit registers the host may write between runs (spec/43_execution_engine.md R170). -/
inductive Reg8 where
  | a | x | y | sp
  deriving DecidableEq, Repr

/-- The flags by name, for the host's writes (R170). -/
inductive FlagName where
  | c | z | i | d | b | v | n
  deriving DecidableEq, Repr

/-- The host commands of spec/43_execution_engine.md R168, memory accesses by byte or by word
(spec/20_memory.md R70). -/
inductive HostCommand where
  | reset
  | execute (budget : Budget)
  | pokeMem (addr : Word) (v : Byte)
  | pokeMemWord (addr : Word) (v : Word)
  | peekMem (addr : Word)
  | peekMemWord (addr : Word)
  | pokeReg (r : Reg8) (v : Byte)
  | pokePc (v : Word)
  | pokeFlag (f : FlagName) (v : Bool)
  | peekState
  deriving DecidableEq, Repr

/-- What `peek_state` returns (R168, R171): the registers, flags, `pc`, `cyc`, `fsm` and `fault`. -/
structure HostView where
  a : Byte
  x : Byte
  y : Byte
  sp : Byte
  pc : Word
  flags : Flags
  cyc : Int
  fsm : Fsm
  fault : Option FaultRecord
  deriving DecidableEq, Repr

/-- What a host command is answered with (R168, R169). -/
inductive HostReply where
  /-- a reset or a host write was carried out -/
  | done
  /-- `execute` ended normally (R169) -/
  | ok
  /-- `execute` reports the error `UnknownOpcode(opcode, fault_pc)` (R169, R182) -/
  | errorUnknownOpcode (opcode : Byte) (faultPc : Word)
  /-- the byte read by `peek_mem` -/
  | byte (v : Byte)
  /-- the word read by `peek_mem` -/
  | word (v : Word)
  /-- the state read by `peek_state` -/
  | view (v : HostView)
  deriving DecidableEq, Repr

/-- The memory `M` (R34): the cells whose content is not `Config.initByte`, by rising address. -/
abbrev Memory := List Host.Cell

/-- The canonical form from address `lo` up: addresses strictly rising and below 65536, no listed
content that an unlisted address reads as. -/
def Memory.wfFrom : Nat → Memory → Bool
  | _, [] => true
  | lo, (a, v) :: rest =>
    decide (lo ≤ a) && decide (a < 65536) && decide (v ≠ Config.initByte) && Memory.wfFrom (a + 1) rest

/-- The canonical form of the memory list: equal memories are equal lists. -/
def Memory.wf (m : Memory) : Bool := Memory.wfFrom 0 m

/-- The whole state. The last two fields are the model's own host port (log entry 4), all others the spec's. -/
structure State where
  /-- `A`, the accumulator (R21) -/
  a : Byte
  /-- `X`, the index-X register (R22) -/
  x : Byte
  /-- `Y`, the index-Y register (R23) -/
  y : Byte
  /-- `SP`, the stack pointer, an offset into the stack page (R24) -/
  sp : Byte
  /-- `pc`, the program counter (R25) -/
  pc : Word
  /-- the seven flags (R28) -/
  flags : Flags
  /-- the control state (R31) -/
  fsm : Fsm
  /-- the fault record (R32) -/
  fault : Option FaultRecord
  /-- the cycle counter, held as an integer as R166 allows; `Safety.Inv` keeps it in 32 bits (R33) -/
  cyc : Int
  /-- whether a reset has happened; a state with `false` is a power-on state (R38) -/
  wasReset : Bool
  /-- the memory `M` (R34) -/
  mem : Memory
  /-- the host commands not yet carried out, oldest first (R168; log entry 4) -/
  commands : List HostCommand
  /-- the answer to the last host command that was answered (R169, R171; log entry 4) -/
  reply : Option HostReply
  deriving DecidableEq, Repr

/-- Why the machine stops with a fault. The spec's own fault, the unknown opcode, is none of these: the
core goes on to the state `haltedWithError` (spec/60_exceptions.md R183). -/
inductive Fault where
  /-- Raised by `step` alone, in a state whose `fsm` is `dispatching` or `runningHandler`: such a state is
  inside an instruction, where no step of the machine starts (R31; spec/43_execution_engine.md R162). No
  step leads there, so it is reached from no reset or power-on state. Safe. -/
  | midInstruction
  deriving DecidableEq, Repr

/-- Why a step is refused. -/
inductive Refusal where
  /-- Raised by an arm of `exec` whose instruction has no meaning yet; no arm is left. Safe. -/
  | notModelled (mnemonic : String)
  /-- Raised by the host command `execute` in a power-on state, to which the spec gives no meaning (R38;
  spec/93_implementation_defined.md U5). Safe. -/
  | executeBeforeReset
  deriving DecidableEq, Repr

/-- The state after `reset` completes (R36), with the host port empty (log entry 4). -/
def State.reset : State where
  a := 0x00
  x := 0x00
  y := 0x00
  sp := Config.spReset
  pc := Config.resetVectorAddr
  flags := ⟨false, false, false, false, false, false, false⟩
  fsm := .idle
  fault := none
  cyc := 0
  wasReset := true
  mem := []
  commands := []
  reply := none

end Sys2Proof.Machine
end

