-- ==== Sys2Proof/Machine/Ops.lean ====
section
/-! DEFINITION. The named operations over memory, registers and control state: the memory primitives
(spec/20_memory.md), the fetch unit (spec/40_addressing_modes.md R100 to R102), the push
(spec/42_jump_to_subroutine.md R140), the transitions of the dispatch FSM (spec/43_execution_engine.md
R153 to R158) and the taking of the one exception (spec/60_exceptions.md R182, R183). -/

namespace Sys2Proof.Machine

/-! ### The memory list -/

/-- The content of the cell at an address. -/
def memGet : Memory → Nat → Byte
  | [], _ => Config.initByte
  | (b, w) :: rest, a => if a = b then w else memGet rest a

/-- A cell put in its place by address. -/
def memInsert (a : Nat) (v : Byte) : Memory → Memory
  | [] => [(a, v)]
  | (b, w) :: rest => if a < b then (a, v) :: (b, w) :: rest else (b, w) :: memInsert a v rest

/-- A cell overwritten: its old entry goes, and the new content is listed unless an unlisted cell has it. -/
def memSet (m : Memory) (a : Nat) (v : Byte) : Memory :=
  if v = Config.initByte then m.filter (fun c => c.1 != a)
  else memInsert a v (m.filter (fun c => c.1 != a))

/-! ### Single updates of the state -/

/-- `M[a]`, with no cycle charged (spec/00_scope.md R11). -/
def cell (s : State) (a : Word) : Byte := memGet s.mem a.toNat

/-- `M[a] <- v`, with no cycle charged (spec/00_scope.md R11; spec/20_memory.md R70). -/
def setCell (a : Word) (v : Byte) (s : State) : State := { s with mem := memSet s.mem a.toNat v }

/-- `Tick(k)` and the charge of a memory access: `cyc <- cyc - k` (R102; spec/43_execution_engine.md R164). -/
def tick (k : Int) (s : State) : State := { s with cyc := s.cyc - k }

/-- `A <- v`. -/
def setA (v : Byte) (s : State) : State := { s with a := v }

/-- `SP <- v`. -/
def setSp (v : Byte) (s : State) : State := { s with sp := v }

/-- `pc <- v`. -/
def setPc (v : Word) (s : State) : State := { s with pc := v }

/-- `fsm <- f`. -/
def setFsm (f : Fsm) (s : State) : State := { s with fsm := f }

/-- An answer handed to the host (spec/43_execution_engine.md R169, R171). -/
def answer (r : HostReply) (s : State) : State := { s with reply := some r }

/-! ### The memory port: spec/20_memory.md R52 to R56 -/

/-- `MemRead(addr, 1)` (R52). -/
def memRead8 (a : Word) (s : State) : Byte × State := (cell s a, tick 1 s)

/-- `MemRead(addr, 2)`: little-endian, low byte first (R53). -/
def memRead16 (a : Word) (s : State) : Word × State :=
  let lo := memRead8 a s
  let hi := memRead8 (inc16 a) lo.2
  (wordOf hi.1 lo.1, hi.2)

/-- `MemWrite(addr, 1, v)` (R54). -/
def memWrite8 (a : Word) (v : Byte) (s : State) : State := tick 1 (setCell a v s)

/-- `MemWrite(addr, 2, v)`: little-endian, low byte first; no implemented instruction uses it (R55). -/
def memWrite16 (a : Word) (v : Word) (s : State) : State :=
  memWrite8 (inc16 a) (hiByte v) (memWrite8 a (loByte v) s)

/-- `init`: every cell zero, no cycle charged (R56). -/
def memInit (s : State) : State := { s with mem := [] }

/-! ### The fetch unit: spec/40_addressing_modes.md R100, R101 -/

/-- What fetching one byte does to the state: one read charged, `pc` advanced by 1 (R100). -/
def takeByte (s : State) : State := setPc (inc16 s.pc) (tick 1 s)

/-- What fetching a 16-bit operand does to the state (R101). -/
def takeWord (s : State) : State := takeByte (takeByte s)

/-- `FetchByte()` (R100). -/
def fetchByte (s : State) : Byte × State := ((memRead8 s.pc s).1, takeByte s)

/-- `FetchWord()` (R101). -/
def fetchWord (s : State) : Word × State :=
  let lo := fetchByte s
  let hi := fetchByte lo.2
  (wordOf hi.1 lo.1, hi.2)

/-- The instruction at `pc`: the opcode byte and, where it has them, its operand bytes, wrapping at the
top of memory (spec/10_state.md R27). Reading changes nothing (spec/20_memory.md R61), so looking at the
bytes here is apart from the cycles and the `pc` advance, which the meanings charge as the bytes are fetched. -/
def fetchInstr (s : State) : Instr :=
  decodeBytes (cell s s.pc) (cell s (inc16 s.pc)) (cell s (inc16 (inc16 s.pc)))

/-! ### The stack: spec/42_jump_to_subroutine.md R140 -/

/-- The cell a stack pointer names: `STACK_BASE + SP` (R140; spec/10_state.md R24). -/
def stackAddr (sp : Byte) : Word := Config.stackBase + zext16 sp

/-- `Push8(b)` (R140). -/
def push8 (b : Byte) (s : State) : State := setSp (dec8 s.sp) (memWrite8 (stackAddr s.sp) b s)

/-! ### The dispatch FSM inside a run: spec/43_execution_engine.md R153 to R158 -/

/-- `Fetching -> Dispatching`: the opcode byte is fetched (R153). -/
def fetchOpcode (s : State) : State := setFsm .dispatching (takeByte s)

/-- The fetch of a known opcode and `Dispatching -> RunningHandler`: no further cycle (R153, R154). -/
def beginHandler (s : State) : State := setFsm .runningHandler (fetchOpcode s)

/-- TAKING THE EXCEPTION `UnknownOpcode(opcode, fault_pc)`, `Dispatching -> HaltedWithError`: the record is
written and `pc` goes back to the unknown opcode; the fetch's cycle stays charged and nothing else changes
(R155; spec/60_exceptions.md R182, R183). There is no return from it (R187): only reset leaves the state. -/
def raiseUnknownOpcode (opcode : Byte) (faultPc : Word) (s : State) : State :=
  { s with pc := faultPc, fsm := .haltedWithError, fault := some (.unknownOpcode opcode faultPc) }

/-- What `execute` reports to the host (R169): the error of the fault record, or `ok`. -/
def reportOf (s : State) : HostReply :=
  match s.fault with
  | some (.unknownOpcode opcode faultPc) => .errorUnknownOpcode opcode faultPc
  | none => .ok

/-- The normal end of a run: `fsm <- Halted`, control returns to the host with `ok` (R150, R169). -/
def haltRun (s : State) : State := answer .ok (setFsm .halted s)

/-- What follows an instruction: the loop check when a handler has completed (R156, R158), or the error
report to the host when the opcode was unknown (R155, R169). -/
def afterInstr (s : State) : State :=
  match s.fsm with
  | .runningHandler => if 0 < s.cyc then setFsm .fetching s else haltRun s
  | .haltedWithError => answer (reportOf s) s
  | .idle => s
  | .fetching => s
  | .dispatching => s
  | .halted => s

/-- Who acts next. -/
inductive Turn where
  /-- the core is not running: the host may act (spec/00_scope.md R9) -/
  | host
  /-- the core is between two instructions of a run (spec/43_execution_engine.md R162) -/
  | core
  /-- the state is inside an instruction, where no step starts -/
  | insideInstr
  deriving DecidableEq, Repr

/-- Whose turn it is: before the first reset, and in `Idle`, `Halted` and `HaltedWithError`, the host's
(R168; spec/10_state.md R31, R38). -/
def turnOf (s : State) : Turn :=
  if s.wasReset then
    match s.fsm with
    | .idle => .host
    | .halted => .host
    | .haltedWithError => .host
    | .fetching => .core
    | .dispatching => .insideInstr
    | .runningHandler => .insideInstr
  else .host

end Sys2Proof.Machine
end

