-- ==== Sys2Proof/Machine/Operands.lean ====
section
/-! DEFINITION. `6502_address_resolver`: the seven operand modes (spec/40_addressing_modes.md R107 to R113).
Each takes the operand that was decoded from the bytes at `pc`, charges their fetch, and answers the
operand value (for `JSRABS` the target) with the state after it. -/

namespace Sys2Proof.Machine

/-- Mode `IMM` (R107). -/
def resolveImm (imm8 : Byte) (s : State) : Byte × State := (imm8, takeByte s)

/-- Mode `ZP` (R108). -/
def resolveZp (zp8 : Byte) (s : State) : Byte × State := memRead8 (zext16 zp8) (takeByte s)

/-- The effective address of mode `ZPX`: the sum wraps inside the zero page (R109). -/
def zpxAddr (zp8 x : Byte) : Word := zext16 (add8 zp8 x)

/-- Mode `ZPX`: the index-add cycle makes no memory access (R109). -/
def resolveZpx (zp8 : Byte) (s : State) : Byte × State :=
  memRead8 (zpxAddr zp8 s.x) (tick 1 (takeByte s))

/-- Mode `ABS` (R110). -/
def resolveAbs (abs16 : Word) (s : State) : Byte × State := memRead8 abs16 (takeWord s)

/-- The part that `ABX` and `ABY` share: the indexed add, the penalty cycle when the low byte carries, and
the dereference (R111, R112). -/
def resolveIndexed (base : Word) (idx : Byte) (s : State) : Byte × State :=
  let r := addIdx base idx
  memRead8 r.1 (if r.2 then tick 1 s else s)

/-- Mode `ABX` (R111). -/
def resolveAbx (abs16 : Word) (s : State) : Byte × State := resolveIndexed abs16 s.x (takeWord s)

/-- Mode `ABY` (R112). -/
def resolveAby (abs16 : Word) (s : State) : Byte × State := resolveIndexed abs16 s.y (takeWord s)

/-- Mode `JSRABS`: the target is not dereferenced (R113). -/
def resolveJsrAbs (abs16 : Word) (s : State) : Word × State := (abs16, takeWord s)

end Sys2Proof.Machine
end

