-- ==== Sys2Proof/Machine/Jump.lean ====
section
/-! DEFINITION. Jump-to-subroutine, the core's only control transfer and its only store
(spec/42_jump_to_subroutine.md R141). -/

namespace Sys2Proof.Machine

/-- The handler `JSR` on the resolved target: the address of the instruction's last byte is pushed, high
byte first; then the jump, and the sixth, internal cycle (R141, R142). -/
def jumpToSubroutine (r : Word × State) : State :=
  let ret := dec16 r.2.pc
  tick 1 (setPc r.1 (push8 (loByte ret) (push8 (hiByte ret) r.2)))

/-- jump-to-subroutine, from the fetch of its opcode byte on (R141). -/
def execJsr (target : Word) (s : State) : Host.Outcome State Fault Refusal :=
  .next (jumpToSubroutine (resolveJsrAbs target (beginHandler s)))

end Sys2Proof.Machine
end

