-- ==== Sys2Proof/Machine/Flags.lean ====
section
/-! DEFINITION. `6502_flag_computer`: the one flag computation of the core (spec/41_load_accumulator.md R120). -/

namespace Sys2Proof.Machine

/-- The flags after `SetZN()` with accumulator `v`: `Z` and `N` recomputed from scratch, the other five kept. -/
def znFlags (v : Byte) (f : Flags) : Flags := { f with z := v == 0x00, n := v.msb }

/-- `SetZN()` (R120). -/
def setZN (s : State) : State := { s with flags := znFlags s.a s.flags }

end Sys2Proof.Machine
end

