-- ==== Sys2Proof/Machine/Load.lean ====
section
/-! DEFINITION. The load-accumulator family (spec/41_load_accumulator.md R121 to R127). Each meaning is the
whole instruction, from the fetch of its opcode byte at `pc` on (spec/43_execution_engine.md R162). -/

namespace Sys2Proof.Machine

/-- The handler `LDA`: the resolved operand goes to the accumulator, then `SetZN()` (R127). -/
def loadAccumulator (r : Byte × State) : State := setZN (setA r.1 r.2)

/-- load-accumulator-immediate (R121). -/
def execLdaImm (imm8 : Byte) (s : State) : Host.Outcome State Fault Refusal :=
  .next (loadAccumulator (resolveImm imm8 (beginHandler s)))

/-- load-accumulator-zero-page (R122). -/
def execLdaZp (zp8 : Byte) (s : State) : Host.Outcome State Fault Refusal :=
  .next (loadAccumulator (resolveZp zp8 (beginHandler s)))

/-- load-accumulator-zero-page-indexed-by-X (R123). -/
def execLdaZpx (zp8 : Byte) (s : State) : Host.Outcome State Fault Refusal :=
  .next (loadAccumulator (resolveZpx zp8 (beginHandler s)))

/-- load-accumulator-absolute (R124). -/
def execLdaAbs (abs16 : Word) (s : State) : Host.Outcome State Fault Refusal :=
  .next (loadAccumulator (resolveAbs abs16 (beginHandler s)))

/-- load-accumulator-absolute-indexed-by-X (R125). -/
def execLdaAbx (abs16 : Word) (s : State) : Host.Outcome State Fault Refusal :=
  .next (loadAccumulator (resolveAbx abs16 (beginHandler s)))

/-- load-accumulator-absolute-indexed-by-Y (R126). -/
def execLdaAby (abs16 : Word) (s : State) : Host.Outcome State Fault Refusal :=
  .next (loadAccumulator (resolveAby abs16 (beginHandler s)))

end Sys2Proof.Machine
end

