-- ==== Sys2Proof/Machine/Unknown.lean ====
section
/-! DEFINITION. The catch-all row of the opcode table: an opcode byte with no descriptor takes the
exception `UnknownOpcode` (spec/60_exceptions.md R181 to R184). -/

namespace Sys2Proof.Machine

/-- An unknown opcode: the byte is fetched, then the exception is taken with the address it was fetched
from (spec/43_execution_engine.md R153, R155). No operand byte is fetched (spec/30_encoding.md R83). -/
def execUnknown (opcode : Byte) (s : State) : Host.Outcome State Fault Refusal :=
  .next (raiseUnknownOpcode opcode s.pc (fetchOpcode s))

end Sys2Proof.Machine
end

