-- ==== Sys2Proof/Machine/Dispatch.lean ====
section
/-! DEFINITION. `exec`: one instruction, one arm per constructor of `Instr`. -/

namespace Sys2Proof.Machine

def exec (i : Instr) (s : State) : Host.Outcome State Fault Refusal :=
  match i with
  | .ldaImm imm8 => Sys2Proof.Machine.execLdaImm imm8 s
  | .ldaZp zp8 => Sys2Proof.Machine.execLdaZp zp8 s
  | .ldaZpx zp8 => Sys2Proof.Machine.execLdaZpx zp8 s
  | .ldaAbs abs16 => Sys2Proof.Machine.execLdaAbs abs16 s
  | .ldaAbx abs16 => Sys2Proof.Machine.execLdaAbx abs16 s
  | .ldaAby abs16 => Sys2Proof.Machine.execLdaAby abs16 s
  | .jsr target => Sys2Proof.Machine.execJsr target s
  | .unknown opcode => Sys2Proof.Machine.execUnknown opcode s

end Sys2Proof.Machine
end

