-- ==== Sys2Proof/Machine/HostPort.lean ====
section
/-! DEFINITION. The host port: `reset` (spec/70_reset_and_hazards.md R200 to R204), `execute` and the host's
reads and writes between runs (spec/43_execution_engine.md R168 to R171). -/

namespace Sys2Proof.Machine

/-- `EntryPoint()` under each reset policy; the vector is read before memory is zeroed, with no cycle
charged (R201, R202). -/
def entryPoint (p : ResetPolicy) (s : State) : Word :=
  match p with
  | .direct => Config.resetVectorAddr
  | .vectorIndirect =>
    wordOf (cell s (inc16 Config.resetVectorAddr)) (cell s Config.resetVectorAddr)

/-- The `reset` command in the order of R200. The host's own commands and its last answer are not the
core's state and stay. -/
def resetCore (p : ResetPolicy) (s : State) : State :=
  let s := { s with
    a := 0x00
    x := 0x00
    y := 0x00
    flags := ⟨false, false, false, false, false, false, false⟩
    sp := Config.spReset
    pc := entryPoint p s }
  { memInit s with cyc := 0, fault := none, fsm := .idle, wasReset := true }

/-- `execute(budget)` accepted: the counter is loaded, and the first instruction is about to be fetched,
or, with a budget that is not positive, the run is over at once (R151, R152). -/
def startRun (budget : Budget) (s : State) : State :=
  let s := { s with cyc := budget.toInt }
  if 0 < s.cyc then setFsm .fetching s else haltRun s

/-- A host write of an 8-bit register (R170). -/
def pokeReg8 (r : Reg8) (v : Byte) (s : State) : State :=
  match r with
  | .a => { s with a := v }
  | .x => { s with x := v }
  | .y => { s with y := v }
  | .sp => { s with sp := v }

/-- The flags after a host write of one of them (R170). -/
def flagsWith (f : FlagName) (v : Bool) (g : Flags) : Flags :=
  match f with
  | .c => { g with c := v }
  | .z => { g with z := v }
  | .i => { g with i := v }
  | .d => { g with d := v }
  | .b => { g with b := v }
  | .v => { g with v := v }
  | .n => { g with n := v }

/-- The word at an address, with no cycle charged (spec/20_memory.md R58, R70). -/
def cellWord (s : State) (a : Word) : Word := wordOf (cell s (inc16 a)) (cell s a)

/-- A word written little-endian, with no cycle charged (spec/20_memory.md R58, R70). -/
def setCellWord (a : Word) (v : Word) (s : State) : State :=
  setCell (inc16 a) (hiByte v) (setCell a (loByte v) s)

/-- What `peek_state` returns (R171). -/
def viewOf (s : State) : HostView where
  a := s.a
  x := s.x
  y := s.y
  sp := s.sp
  pc := s.pc
  flags := s.flags
  cyc := s.cyc
  fsm := s.fsm
  fault := s.fault

/-- The command `execute`: without meaning before the first reset (spec/10_state.md R38), refused with the
same error reported again and nothing changed in `HaltedWithError` (R159), else a run starts (R151, R152;
the host's turn comes only in `Idle` and `Halted` then). -/
def hostExecute (budget : Budget) (s : State) : Host.Outcome State Fault Refusal :=
  if s.wasReset then
    match s.fsm with
    | .haltedWithError => .next (answer (reportOf s) s)
    | .idle => .next (startRun budget s)
    | .halted => .next (startRun budget s)
    | .fetching => .next (startRun budget s)
    | .dispatching => .next (startRun budget s)
    | .runningHandler => .next (startRun budget s)
  else .refused .executeBeforeReset

/-- One host command, carried out while the core is not running (R168). -/
def hostCommand (c : HostCommand) (s : State) : Host.Outcome State Fault Refusal :=
  match c with
  | .reset => .next (answer .done (resetCore Config.resetPolicy s))
  | .execute budget => hostExecute budget s
  | .pokeMem a v => .next (answer .done (setCell a v s))
  | .pokeMemWord a v => .next (answer .done (setCellWord a v s))
  | .peekMem a => .next (answer (.byte (cell s a)) s)
  | .peekMemWord a => .next (answer (.word (cellWord s a)) s)
  | .pokeReg r v => .next (answer .done (pokeReg8 r v s))
  | .pokePc v => .next (answer .done (setPc v s))
  | .pokeFlag f v => .next (answer .done { s with flags := flagsWith f v s.flags })
  | .peekState => .next (answer (.view (viewOf s)) s)

/-- The host's turn: its oldest command is carried out; without one the state is stable (R159). -/
def hostTurn (s : State) : Host.Outcome State Fault Refusal :=
  match s.commands with
  | [] => .next s
  | c :: rest => hostCommand c { s with commands := rest }

/-- The three bytes at `pc` set to those of a table word (for `State.withFetchWord`). -/
def placeTableWord (nbits w : Nat) (s : State) : State :=
  setCell (inc16 (inc16 s.pc)) (tableByte nbits w 2)
    (setCell (inc16 s.pc) (tableByte nbits w 1) (setCell s.pc (tableByte nbits w 0) s))

/-- The core inside a run, about to fetch, with a budget of 1 where none is left: `execute(1)` runs exactly
one instruction (spec/60_exceptions.md R192). -/
def readyToFetch (s : State) : State :=
  { s with fsm := .fetching, fault := none, wasReset := true, cyc := if 0 < s.cyc then s.cyc else 1 }

end Sys2Proof.Machine
end

