-- ==== Sys2Proof/Machine/Step.lean ====
section
/-! DEFINITION. `step`: one instruction of a run with the loop checks around it
(spec/43_execution_engine.md R156, R158, R162), or one host command while the core is not running. -/

namespace Sys2Proof.Machine

/-- An instruction's outcome with the loop check after it. -/
def finishInstr (o : Host.Outcome State Fault Refusal) : Host.Outcome State Fault Refusal :=
  match o with
  | .next s => .next (afterInstr s)
  | .fault r => .fault r
  | .refused r => .refused r

/-- The core's turn: the loop check before the instruction, then the instruction at `pc` (R156, R162). -/
def coreTurn (s : State) : Host.Outcome State Fault Refusal :=
  if 0 < s.cyc then finishInstr (exec (fetchInstr s) s) else .next (haltRun s)

/-- One step of the machine. -/
def step (s : State) : Host.Outcome State Fault Refusal :=
  match turnOf s with
  | .host => hostTurn s
  | .core => coreTurn s
  | .insideInstr => .fault .midInstruction

/-- `s` with the instruction of a table word at `pc` and the core about to fetch it (log entry 5). -/
def State.withFetchWord (s : State) (nbits w : Nat) : State :=
  readyToFetch (placeTableWord nbits w s)

end Sys2Proof.Machine
end

