-- ==== Sys2Proof/Safety.lean ====
section
/-! DEFINITION. The terms in which claims speak of a run: the invariant of the states between steps
(spec/10_state.md R39), a core ready to run an instruction, the two ends of a run (spec/00_scope.md R19),
and the cycle cost the timing table gives an instruction (spec/70_reset_and_hazards.md R215). -/

namespace Sys2Proof.Safety

open Sys2Proof.Machine

/-- The core is in a run and the loop check lets the next instruction start (R156, R162). -/
def Ready (s : State) : Prop := s.wasReset = true ∧ s.fsm = .fetching ∧ 0 < s.cyc

/-- The host may issue a command: power-on, `Idle`, `Halted` or `HaltedWithError` (R168). -/
def HostsTurn (s : State) : Prop := turnOf s = .host

/-- The run has ended normally (R19). -/
def EndedNormally (s : State) : Prop := s.fsm = .halted

/-- The run has ended in the fault (R19); such a state is never a normal end (R187). -/
def EndedInFault (s : State) : Prop := s.fsm = .haltedWithError

/-- What holds in every state between two steps, once it holds at the start (R39 and the loop check). The
clauses about the control state speak of states after the first reset: before it, no element of the core's
state has a defined value (R38). -/
structure Inv (s : State) : Prop where
  /-- the memory list is in its canonical form -/
  memWf : Memory.wf s.mem = true
  /-- `cyc` is in the signed 32-bit range (R39) -/
  cycRange : Config.cycMin ≤ s.cyc ∧ s.cyc ≤ Config.cycMax
  /-- no instruction is half done (R31, R39) -/
  betweenInstrs : s.wasReset = true → s.fsm ≠ .dispatching ∧ s.fsm ≠ .runningHandler
  /-- `fault /= none` exactly when `fsm = HaltedWithError` (R32, R39) -/
  faultIff : s.wasReset = true → (s.fault ≠ none ↔ s.fsm = .haltedWithError)
  /-- the record names a byte that has no descriptor (R32) -/
  faultOpcode : s.wasReset = true → ∀ opcode faultPc,
    s.fault = some (.unknownOpcode opcode faultPc) → descriptor opcode = none
  /-- no run has loaded the counter since reset (R163) -/
  idleCyc : s.wasReset = true → s.fsm = .idle → s.cyc = 0
  /-- between two instructions of a run the counter is positive (R156) -/
  fetchingCyc : s.wasReset = true → s.fsm = .fetching → 0 < s.cyc
  /-- a run ends normally only when the counter is zero or negative (R19) -/
  haltedCyc : s.wasReset = true → s.fsm = .halted → s.cyc ≤ 0
  /-- an unknown opcode was fetched with a positive counter (R185) -/
  faultCyc : s.wasReset = true → s.fsm = .haltedWithError → 0 ≤ s.cyc

/-- The opcode byte of an instruction. -/
def opcodeOf (i : Instr) : Byte := (encode i).headD 0

/-- The base cost: the descriptor's `base_cycles`, and the one fetch of an unknown opcode (R85, R215). -/
def baseCost (i : Instr) : Int :=
  match descriptor (opcodeOf i) with
  | some d => d.baseCycles
  | none => 1

/-- The page-crossing penalty, of the two absolute indexed loads only (R115, R215). -/
def penalty (i : Instr) (s : State) : Int :=
  match i with
  | .ldaAbx base => if pageCrossed base s.x then 1 else 0
  | .ldaAby base => if pageCrossed base s.y then 1 else 0
  | .ldaImm _ => 0
  | .ldaZp _ => 0
  | .ldaZpx _ => 0
  | .ldaAbs _ => 0
  | .jsr _ => 0
  | .unknown _ => 0

/-- The total cycle cost of an instruction started in a state (R215). -/
def cost (i : Instr) (s : State) : Int := baseCost i + penalty i s

/-- A load-accumulator instruction (R4). -/
def isLoad : Instr → Bool
  | .ldaImm _ => true
  | .ldaZp _ => true
  | .ldaZpx _ => true
  | .ldaAbs _ => true
  | .ldaAbx _ => true
  | .ldaAby _ => true
  | .jsr _ => false
  | .unknown _ => false

/-- The state a load-accumulator instruction leaves, from the value loaded, the length and the cycles of the
table (R128), in numbers and not through the model's own operations. The control state is that of a
completed handler, whose loop check `step` makes (R158). -/
def loaded (v : Byte) (len : Word) (cycles : Int) (s : State) : State :=
  { s with
    a := v
    flags := { s.flags with z := decide (v.toNat = 0), n := decide (0x80 ≤ v.toNat) }
    pc := s.pc + len
    cyc := s.cyc - cycles
    fsm := .runningHandler }

/-- The cell of the stack page that an offset names, in numbers (R24). -/
def stackCell (offset : Nat) : Word := Config.stackBase + BitVec.ofNat 16 (offset % 256)

end Sys2Proof.Safety
end

