-- ==== Sys2Proof/Certificates/Slice0/Obligations.lean ====
section
/-! DEFINITION. The statements for the provers. Each docstring names the sentence of spec/ it formalises, and
says where a clause rests on a decision or an inference of the spec, or on a choice of the model. -/

open Sys2Proof Sys2Proof.Machine Sys2Proof.Safety

/-! ### Encoding -/

/-- Decode and encode agree, with every operand at every value and any bytes after the instruction
(30_encoding.md, sections 1 and 2). -/
def Obligations.DecodeOfEncodeIsTheInstruction : Prop :=
  ∀ (i : Instr) (rest : List Byte), i.wellFormed = true → decode (encode i ++ rest) = .ok (i, rest)

/-- The other direction: a decoded instruction is well-formed, its bytes are the ones it was decoded from,
and there are as many of them as its length says. -/
def Obligations.DecodedBytesAreTheEncoding : Prop :=
  ∀ (bs rest : List Byte) (i : Instr), decode bs = .ok (i, rest) →
    i.wellFormed = true ∧ bs = encode i ++ rest ∧ (encode i).length = i.length

/-- Words written out from the spec's encodings (the opcode table's bit strings, byte 0 first) decode to the
instructions they stand for. The opcode values are the spec's decision D5 (log entry 3). -/
def Obligations.WrittenOutWordsDecode : Prop :=
  decode [0b10101001, 0b10000001] = .ok (.ldaImm 0x81, []) ∧
  decode [0b10100101, 0b01000010] = .ok (.ldaZp 0x42, []) ∧
  decode [0b10110101, 0b11110000] = .ok (.ldaZpx 0xF0, []) ∧
  decode [0b10101101, 0b10000000, 0b01000100] = .ok (.ldaAbs 0x4480, []) ∧
  decode [0b10111101, 0b11111111, 0b01000100] = .ok (.ldaAbx 0x44FF, []) ∧
  decode [0b10111001, 0b00000010, 0b01000100] = .ok (.ldaAby 0x4402, []) ∧
  decode [0b00100000, 0b00110100, 0b00010010] = .ok (.jsr 0x1234, []) ∧
  decode [0b01100000, 0b00110100, 0b00010010] = .ok (.unknown 0x60, [0x34, 0x12])

/-- R87, both ways: a byte that is none of the seven `OPC_*` values has no descriptor, and each of the seven
has one; there are 249 such bytes, the content of a cell after reset among them; whatever bytes follow it,
the instruction at such a byte raises `UnknownOpcode`. -/
def Obligations.EveryOtherByteIsAnUnknownOpcode : Prop :=
  (∀ opcode : Byte, descriptor opcode = none ↔
    (opcode ≠ Config.opcLdaImm ∧ opcode ≠ Config.opcLdaZp ∧ opcode ≠ Config.opcLdaZpx ∧
      opcode ≠ Config.opcLdaAbs ∧ opcode ≠ Config.opcLdaAbx ∧ opcode ≠ Config.opcLdaAby ∧
      opcode ≠ Config.opcJsr)) ∧
  ((List.range 256).filter (fun n => descriptor (BitVec.ofNat 8 n) == none)).length = 249 ∧
  descriptor Config.initByte = none ∧
  (∀ (opcode b1 b2 : Byte) (s : State), descriptor opcode = none →
    ∃ t, exec (decodeBytes opcode b1 b2) s = .next t ∧
      t.fault = some (.unknownOpcode opcode s.pc) ∧ t.fsm = .haltedWithError)

/-! ### The ALU -/

/-- R103, R104, R106: the modular adders, as numbers; and the use R104 is for, that the zero-page index add
never leaves the zero page. -/
def Obligations.AddersWrapByDesign : Prop :=
  (∀ a : Word, (inc16 a).toNat = (a.toNat + 1) % 65536) ∧
  (∀ a : Word, (dec16 a).toNat = (a.toNat + 65535) % 65536) ∧
  dec16 0x0000 = 0xFFFF ∧
  (∀ a b : Byte, (add8 a b).toNat = (a.toNat + b.toNat) % 256) ∧
  add8 0xFF 0x02 = 0x01 ∧
  (∀ a : Byte, (dec8 a).toNat = (a.toNat + 255) % 256) ∧
  dec8 0x00 = 0xFF ∧
  (∀ a : Byte, (inc8 a).toNat = (a.toNat + 1) % 256) ∧
  (∀ zp x : Byte, (zpxAddr zp x).toNat = (zp.toNat + x.toNat) % 256)

/-- R115: the definition of a page crossing, the corners of its table, and that it applies to the two absolute
indexed loads only: it costs them one cycle, and what any other instruction costs depends on no state. -/
def Obligations.PageCrossingIsTheLowByteCarry : Prop :=
  (∀ (base : Word) (idx : Byte),
    pageCrossed base idx = true ↔ (base &&& 0xFF).toNat + idx.toNat > 0xFF) ∧
  (∀ hi : Byte, pageCrossed (wordOf hi 0x00) 0xFF = false ∧ pageCrossed (wordOf hi 0x01) 0xFF = true ∧
    pageCrossed (wordOf hi 0xFF) 0x00 = false ∧ pageCrossed (wordOf hi 0xFF) 0x01 = true ∧
    pageCrossed (wordOf hi 0x80) 0x7F = false ∧ pageCrossed (wordOf hi 0x80) 0x80 = true) ∧
  (∀ base : Word, pageCrossed base 0x00 = false) ∧
  (∀ (base : Word) (s : State), ∃ t u,
    exec (.ldaAbx base) s = .next t ∧ s.cyc - t.cyc = (if pageCrossed base s.x then 5 else 4) ∧
    exec (.ldaAby base) s = .next u ∧ s.cyc - u.cyc = (if pageCrossed base s.y then 5 else 4)) ∧
  (∀ (i : Instr) (s s' t t' : State), (∀ base, i ≠ .ldaAbx base) → (∀ base, i ≠ .ldaAby base) →
    exec i s = .next t → exec i s' = .next t' → s.cyc - t.cyc = s'.cyc - t'.cyc)

/-- The indexed add as numbers, and the inference the spec draws in R105 (marked derived there): the carry is
seen in the high byte of the sum. -/
def Obligations.IndexedAddCarriesIntoTheHighByte : Prop :=
  ∀ (base : Word) (idx : Byte),
    (addIdx base idx).1.toNat = (base.toNat + idx.toNat) % 65536 ∧
    ((addIdx base idx).2 = true ↔ base.toNat % 256 + idx.toNat > 0xFF) ∧
    ((addIdx base idx).2 = true ↔ hiByte (addIdx base idx).1 ≠ hiByte base)

/-! ### Memory -/

/-- R51, R52: whatever integer is computed as an address, the cell read or written is the one at that integer
modulo 65536; a byte read answers it, charges one cycle and changes nothing else; the high byte of a word at
0xFFFF is at 0x0000. -/
def Obligations.AddressesWrapAndReadsChangeOnlyTheCounter : Prop :=
  (∀ (n : Int) (s : State),
    memRead8 (addrOf n) s = (cell s (BitVec.ofNat 16 (n % 65536).toNat), { s with cyc := s.cyc - 1 })) ∧
  (∀ (n : Int) (v : Byte) (s : State),
    memWrite8 (addrOf n) v s = memWrite8 (BitVec.ofNat 16 (n % 65536).toNat) v s) ∧
  (∀ s : State, (memRead16 0xFFFF s).1.toNat = (cell s 0x0000).toNat * 256 + (cell s 0xFFFF).toNat)

/-- R54: a byte write stores the byte at the address taken modulo 65536, charges one cycle, and changes no
other cell and nothing else. -/
def Obligations.ByteWriteStoresOneCell : Prop :=
  ∀ (n : Int) (a : Word) (v : Byte) (s : State), a.toNat = (n % 65536).toNat →
    cell (memWrite8 (addrOf n) v s) a = v ∧
    (∀ b, b ≠ a → cell (memWrite8 (addrOf n) v s) b = cell s b) ∧
    memWrite8 (addrOf n) v s = { s with mem := (memWrite8 (addrOf n) v s).mem, cyc := s.cyc - 1 }

/-- R71 (and R55's placement): a word written is the word read back, at every address, the wrap included; a
byte read of either half sees that half; a write is two cycles, a read two more. -/
def Obligations.WordWrittenIsTheWordRead : Prop :=
  ∀ (a v : Word) (s : State),
    (memRead16 a (memWrite16 a v s)).1 = v ∧
    (cell (memWrite16 a v s) a).toNat = v.toNat % 256 ∧
    (cell (memWrite16 a v s) (a + 1)).toNat = v.toNat / 256 ∧
    (∀ b, b ≠ a → b ≠ a + 1 → cell (memWrite16 a v s) b = cell s b) ∧
    (memWrite16 a v s).cyc = s.cyc - 2 ∧
    (memRead16 a (memWrite16 a v s)).2.cyc = s.cyc - 4

/-- R53, R100, R101: the word read and the two fetches: the values, little-endian, and all they change. -/
def Obligations.FetchesAndWordReads : Prop :=
  ∀ s : State,
    (∀ a : Word, memRead16 a s = (wordOf (cell s (a + 1)) (cell s a), { s with cyc := s.cyc - 2 })) ∧
    fetchByte s = (cell s s.pc, { s with pc := s.pc + 1, cyc := s.cyc - 1 }) ∧
    fetchWord s =
      (wordOf (cell s (s.pc + 1)) (cell s s.pc), { s with pc := s.pc + 2, cyc := s.cyc - 2 }) ∧
    (∀ hi lo : Byte, (wordOf hi lo).toNat = hi.toNat * 256 + lo.toNat)

/-- Instruction-fetch coherence (20_memory.md section 5, an inference of the spec there): where the bytes of a
well-formed instruction stand at `pc`, it is the instruction the core fetches; bytes behind it do not matter. -/
def Obligations.FetchSeesTheBytesInMemory : Prop :=
  ∀ (i : Instr) (s : State), i.wellFormed = true →
    (∀ k, k < i.length → cell s (s.pc + BitVec.ofNat 16 k) = (encode i).getD k 0) → fetchInstr s = i

/-- The model's own placing of a table word (log entry 5): the next step's instruction is the one the decoder
reads from the word, and nothing but three cells and the four fields the fetch needs has changed. -/
def Obligations.PlacedTableWordIsFetchedNext : Prop :=
  ∀ (s : State) (nbits w : Nat) (i : Instr), decodeTableWord nbits w = some i →
    fetchInstr (s.withFetchWord nbits w) = i ∧ Ready (s.withFetchWord nbits w) ∧
    s.withFetchWord nbits w = { s with
      mem := (s.withFetchWord nbits w).mem, fsm := .fetching, fault := none, wasReset := true
      cyc := (s.withFetchWord nbits w).cyc } ∧
    (∀ a, a ≠ s.pc → a ≠ s.pc + 1 → a ≠ s.pc + 2 → cell (s.withFetchWord nbits w) a = cell s a)

/-! ### The resolver and the flag computer -/

/-- The seven modes: the value answered, and that a mode changes `pc` and `cyc` alone, by the operand bytes
and the cycles of the mode table (40_addressing_modes.md section 3). -/
def Obligations.ResolverModes : Prop :=
  ∀ (s : State) (b : Byte) (w : Word),
    resolveImm b s = (b, { s with pc := s.pc + 1, cyc := s.cyc - 1 }) ∧
    resolveZp b s = (cell s (BitVec.ofNat 16 b.toNat), { s with pc := s.pc + 1, cyc := s.cyc - 2 }) ∧
    resolveZpx b s = (cell s (BitVec.ofNat 16 ((b.toNat + s.x.toNat) % 256)),
      { s with pc := s.pc + 1, cyc := s.cyc - 3 }) ∧
    resolveAbs w s = (cell s w, { s with pc := s.pc + 2, cyc := s.cyc - 3 }) ∧
    resolveAbx w s = (cell s (BitVec.ofNat 16 ((w.toNat + s.x.toNat) % 65536)), { s with
      pc := s.pc + 2, cyc := s.cyc - (if w.toNat % 256 + s.x.toNat > 0xFF then 4 else 3) }) ∧
    resolveAby w s = (cell s (BitVec.ofNat 16 ((w.toNat + s.y.toNat) % 65536)), { s with
      pc := s.pc + 2, cyc := s.cyc - (if w.toNat % 256 + s.y.toNat > 0xFF then 4 else 3) }) ∧
    resolveJsrAbs w s = (w, { s with pc := s.pc + 2, cyc := s.cyc - 2 })

/-- R120: `Z` and `N` recomputed from the accumulator alone, set to 0 in the non-triggering case, whatever
they were; the other five flags and everything else kept; no cycle. (The rule's inference that the two are
never both 1 is a statement of its own.) -/
def Obligations.ZeroAndNegativeAreRecomputed : Prop :=
  ∀ s : State,
    setZN s = { s with flags :=
      { s.flags with z := decide (s.a.toNat = 0), n := decide (0x80 ≤ s.a.toNat) } } ∧
    (setZN s).flags.n = s.a.getLsbD 7 ∧
    (∀ z n : Bool, setZN { s with flags := { s.flags with z := z, n := n } } = setZN s)

/-- The inference of the spec in R120 (marked derived there), over the six loads. -/
def Obligations.LoadsNeverLeaveZeroAndNegativeBothSet : Prop :=
  ∀ (i : Instr) (s t : State), isLoad i = true → exec i s = .next t →
    ¬ (t.flags.z = true ∧ t.flags.n = true)

/-! ### The instructions: what each completes with, for every state and operand -/

/-- R121: the encoding, the operand fetched, and the whole effect; 2 bytes, 2 cycles. -/
def Obligations.LoadImmediate : Prop :=
  (∀ v, encode (.ldaImm v) = [Config.opcLdaImm, v]) ∧
  (∀ s, cell s s.pc = Config.opcLdaImm → fetchInstr s = .ldaImm (cell s (s.pc + 1))) ∧
  (∀ v s, exec (.ldaImm v) s = .next (loaded v 2 2 s))

/-- R122: the cell is in the zero page; 2 bytes, 3 cycles. -/
def Obligations.LoadZeroPage : Prop :=
  (∀ z, encode (.ldaZp z) = [Config.opcLdaZp, z]) ∧
  (∀ s, cell s s.pc = Config.opcLdaZp → fetchInstr s = .ldaZp (cell s (s.pc + 1))) ∧
  (∀ (z : Byte) s, exec (.ldaZp z) s = .next (loaded (cell s (BitVec.ofNat 16 z.toNat)) 2 3 s))

/-- 41_load_accumulator.md, R123: the address wraps inside the zero page; 4 cycles, always. That `pc` advances
by 2 is the spec's own inference there. -/
def Obligations.LoadZeroPageIndexedByX : Prop :=
  (∀ z, encode (.ldaZpx z) = [Config.opcLdaZpx, z]) ∧
  (∀ s, cell s s.pc = Config.opcLdaZpx → fetchInstr s = .ldaZpx (cell s (s.pc + 1))) ∧
  (∀ (z : Byte) s, exec (.ldaZpx z) s =
    .next (loaded (cell s (BitVec.ofNat 16 ((z.toNat + s.x.toNat) % 256))) 2 4 s))

/-- R124: 3 bytes, low byte of the address first; 4 cycles. -/
def Obligations.LoadAbsolute : Prop :=
  (∀ hi lo : Byte, encode (.ldaAbs (wordOf hi lo)) = [Config.opcLdaAbs, lo, hi]) ∧
  (∀ s, cell s s.pc = Config.opcLdaAbs →
    fetchInstr s = .ldaAbs (wordOf (cell s (s.pc + 2)) (cell s (s.pc + 1)))) ∧
  (∀ a s, exec (.ldaAbs a) s = .next (loaded (cell s a) 3 4 s))

/-- 41_load_accumulator.md, R125: 4 cycles, 5 with a page crossing. That `pc` advances by 3 is the spec's own
inference there. -/
def Obligations.LoadAbsoluteIndexedByX : Prop :=
  (∀ hi lo : Byte, encode (.ldaAbx (wordOf hi lo)) = [Config.opcLdaAbx, lo, hi]) ∧
  (∀ s, cell s s.pc = Config.opcLdaAbx →
    fetchInstr s = .ldaAbx (wordOf (cell s (s.pc + 2)) (cell s (s.pc + 1)))) ∧
  (∀ (a : Word) s, exec (.ldaAbx a) s =
    .next (loaded (cell s (BitVec.ofNat 16 ((a.toNat + s.x.toNat) % 65536))) 3
      (if a.toNat % 256 + s.x.toNat > 0xFF then 5 else 4) s))

/-- 41_load_accumulator.md, R126: as R125 with `Y` for `X`. That `pc` advances by 3 is the spec's own
inference there. -/
def Obligations.LoadAbsoluteIndexedByY : Prop :=
  (∀ hi lo : Byte, encode (.ldaAby (wordOf hi lo)) = [Config.opcLdaAby, lo, hi]) ∧
  (∀ s, cell s s.pc = Config.opcLdaAby →
    fetchInstr s = .ldaAby (wordOf (cell s (s.pc + 2)) (cell s (s.pc + 1)))) ∧
  (∀ (a : Word) s, exec (.ldaAby a) s =
    .next (loaded (cell s (BitVec.ofNat 16 ((a.toNat + s.y.toNat) % 65536))) 3
      (if a.toNat % 256 + s.y.toNat > 0xFF then 5 else 4) s))

/-- R141: the whole effect of jump-to-subroutine: the jump, the two bytes of the address of its own last
byte (high byte at the old `SP`, low byte below it, wrapping in the page), `SP` lowered by 2, 6 cycles, and
nothing else. The control state is that of a completed handler. -/
def Obligations.JumpToSubroutine : Prop :=
  (∀ hi lo : Byte, encode (.jsr (wordOf hi lo)) = [Config.opcJsr, lo, hi]) ∧
  (∀ s, cell s s.pc = Config.opcJsr →
    fetchInstr s = .jsr (wordOf (cell s (s.pc + 2)) (cell s (s.pc + 1)))) ∧
  (∀ (target : Word) (s : State), ∃ t, exec (.jsr target) s = .next t ∧
    t = { s with pc := target, sp := s.sp - 2, cyc := s.cyc - 6, fsm := .runningHandler, mem := t.mem } ∧
    cell t (stackCell s.sp.toNat) = hiByte (s.pc + 2) ∧
    cell t (stackCell (s.sp.toNat + 255)) = loByte (s.pc + 2) ∧
    (∀ a, a ≠ stackCell s.sp.toNat → a ≠ stackCell (s.sp.toNat + 255) → cell t a = cell s a))

/-- R143: the stack image: popping the low byte, then the high byte, and going on at the address plus 1 would
resume right after the jump; with an old `SP` of at least 1 the two bytes are a little-endian word one below
the cell `SP` named. -/
def Obligations.PushedAddressResumesAfterTheJump : Prop :=
  ∀ (target : Word) (s : State), ∃ t, exec (.jsr target) s = .next t ∧
    t.sp.toNat = (s.sp.toNat + 254) % 256 ∧
    cell t (stackCell s.sp.toNat) = hiByte (s.pc + 2) ∧
    cell t (stackCell (s.sp.toNat + 255)) = loByte (s.pc + 2) ∧
    wordOf (cell t (stackCell (t.sp.toNat + 2))) (cell t (stackCell (t.sp.toNat + 1))) + 1 = s.pc + 3 ∧
    (1 ≤ s.sp.toNat → (memRead16 (Config.stackBase + BitVec.ofNat 16 (s.sp.toNat - 1)) t).1 = s.pc + 2)

/-- R140: one push: the byte at `STACK_BASE + SP`, which lies in the stack page, then `SP` lowered by 1, from
0x00 to 0xFF; one cycle; nothing else. -/
def Obligations.PushStaysInTheStackPage : Prop :=
  ∀ (b : Byte) (s : State),
    push8 b s = { s with sp := (push8 b s).sp, cyc := s.cyc - 1, mem := (push8 b s).mem } ∧
    (push8 b s).sp.toNat = (s.sp.toNat + 255) % 256 ∧
    cell (push8 b s) (stackCell s.sp.toNat) = b ∧
    (∀ a, a ≠ stackCell s.sp.toNat → cell (push8 b s) a = cell s a) ∧
    Config.stackBase.toNat ≤ (stackCell s.sp.toNat).toNat ∧
    (stackCell s.sp.toNat).toNat ≤ Config.stackBase.toNat + 0xFF ∧
    (s.sp = 0x00 → (push8 b s).sp = 0xFF ∧ stackCell s.sp.toNat = Config.stackBase)

/-- 60_exceptions.md, R183: the state an unknown opcode commits: the record of the byte and its address, `pc`
at that address, the fetch's one cycle, and nothing else. That `pc` stays there and the cycle is charged is the
spec's decision D9. -/
def Obligations.UnknownOpcodeTakesTheException : Prop :=
  ∀ (opcode : Byte) (s : State), exec (.unknown opcode) s =
    .next { s with
      cyc := s.cyc - 1, fsm := .haltedWithError, fault := some (.unknownOpcode opcode s.pc) }

/-! ### Frames -/

/-- The frame of the six loads: they write `A`, `Z`, `N`, `pc`, `cyc` and the control state, and no memory. -/
def Obligations.LoadsFrame : Prop :=
  ∀ (i : Instr) (s t : State), isLoad i = true → exec i s = .next t →
    t.x = s.x ∧ t.y = s.y ∧ t.sp = s.sp ∧
    t.flags.c = s.flags.c ∧ t.flags.i = s.flags.i ∧ t.flags.d = s.flags.d ∧
    t.flags.b = s.flags.b ∧ t.flags.v = s.flags.v ∧
    t.fault = s.fault ∧ t.wasReset = s.wasReset ∧ t.commands = s.commands ∧ t.reply = s.reply ∧
    (∀ a, cell t a = cell s a)

/-- The frame of jump-to-subroutine: it writes `SP`, `pc`, `cyc`, the control state, and the two cells its two
pushes address, computed as its meaning computes them (R140, R141). -/
def Obligations.JumpToSubroutineFrame : Prop :=
  ∀ (target : Word) (s t : State), exec (.jsr target) s = .next t →
    t.a = s.a ∧ t.x = s.x ∧ t.y = s.y ∧ t.flags = s.flags ∧
    t.fault = s.fault ∧ t.wasReset = s.wasReset ∧ t.commands = s.commands ∧ t.reply = s.reply ∧
    (∀ a1 a2, stackAddr s.sp = a1 → stackAddr (dec8 s.sp) = a2 →
      ∀ a, a ≠ a1 → a ≠ a2 → cell t a = cell s a)

/-- The frame of an unknown opcode: only `cyc`, the control state and the fault record change; `pc` ends where
it was (the spec's decision D9). -/
def Obligations.UnknownOpcodeFrame : Prop :=
  ∀ (opcode : Byte) (s t : State), exec (.unknown opcode) s = .next t →
    t.a = s.a ∧ t.x = s.x ∧ t.y = s.y ∧ t.sp = s.sp ∧ t.flags = s.flags ∧ t.pc = s.pc ∧
    t.wasReset = s.wasReset ∧ t.commands = s.commands ∧ t.reply = s.reply ∧
    (∀ a, cell t a = cell s a)

/-! ### Whole-machine rules about instructions -/

/-- 10_state.md, R22, R23, R29 (inferences of the spec from the instruction set): no instruction writes `X`,
`Y`, or a flag other than `Z` and `N`; one that is no load writes no flag and not `A`; one that is no jump
does not write `SP`. 10_state.md, R34: the core writes memory only in jump-to-subroutine, so one that is no jump
leaves every cell as it was (41_load_accumulator.md, R127, for the loads; 60_exceptions.md, R183, for an unknown
opcode). -/
def Obligations.OnlyLoadsWriteFlagsAndOnlyJumpsWriteTheStackPointer : Prop :=
  ∀ (i : Instr) (s t : State), exec i s = .next t →
    t.x = s.x ∧ t.y = s.y ∧
    t.flags = { s.flags with z := t.flags.z, n := t.flags.n } ∧
    (isLoad i = false → t.a = s.a ∧ t.flags = s.flags) ∧
    ((∀ target, i ≠ .jsr target) → t.sp = s.sp ∧ ∀ a, cell t a = cell s a)

/-- 10_state.md section 3: no instruction has a flag as an input: other flags at the start give the same
result, with those flags kept where the instruction does not write them. -/
def Obligations.NoInstructionReadsAFlag : Prop :=
  ∀ (i : Instr) (s t : State) (g : Flags), exec i s = .next t →
    exec i { s with flags := g } = .next { t with flags :=
      { g with z := if isLoad i = true then t.flags.z else g.z,
               n := if isLoad i = true then t.flags.n else g.n } }

/-- 40_addressing_modes.md, R109, R111, R112: only the modes indexed by `X` read `X`, only the mode indexed by
`Y` reads `Y`. -/
def Obligations.IndexRegistersAreReadOnlyByTheirModes : Prop :=
  ∀ (i : Instr) (s t : State) (v : Byte), exec i s = .next t →
    ((∀ b, i ≠ .ldaZpx b) → (∀ a, i ≠ .ldaAbx a) → exec i { s with x := v } = .next { t with x := v }) ∧
    ((∀ a, i ≠ .ldaAby a) → exec i { s with y := v } = .next { t with y := v })

/-- 70_reset_and_hazards.md section 4: the cycles charged are the descriptor's base cycles and the page
crossing; one for an unknown opcode; from 2 to 6 for the seven. -/
def Obligations.CyclesChargedAreTheTimingTable : Prop :=
  ∀ (i : Instr) (s : State), i.wellFormed = true → ∃ t, exec i s = .next t ∧
    t.cyc = s.cyc - cost i s ∧
    ((∃ opcode, i = .unknown opcode) → cost i s = 1) ∧
    ((∀ opcode, i ≠ .unknown opcode) → 2 ≤ cost i s ∧ cost i s ≤ 6)

/-! ### The engine -/

/-- The rule that the statements above reach a run by: a ready core decodes the bytes at `pc` and runs that
instruction; around it the step adds only the loop check after a handler, or the error report after an
unknown opcode (`afterInstr`; 43_execution_engine.md sections 1 and 2). -/
def Obligations.StepRunsTheDecodedInstruction : Prop :=
  ∀ (s : State) (i : Instr) (rest : List Byte), Ready s →
    decode [cell s s.pc, cell s (s.pc + 1), cell s (s.pc + 2)] = .ok (i, rest) →
    i.wellFormed = true ∧ ∃ t, exec i s = .next t ∧ step s = .next (afterInstr t)

/-- R158 with R156's condition: after the instruction the run goes on if the counter is positive and is over
if it is not; nothing else of the core changes then. -/
def Obligations.LoopCheckAfterTheHandler : Prop :=
  ∀ s t : State, Ready s → exec (fetchInstr s) s = .next t → t.fsm = .runningHandler →
    ∃ u, step s = .next u ∧ u = { t with fsm := u.fsm, reply := u.reply } ∧
      (0 < t.cyc → u.fsm = .fetching) ∧ (t.cyc ≤ 0 → u.fsm = .halted)

/-- R156: the check comes before the fetch: with a counter that is not positive nothing is fetched, whatever
byte stands at `pc`, and the run is over with nothing else of the core changed; with a positive one, be it 1,
the instruction is run. -/
def Obligations.LoopCheckBeforeTheFetch : Prop :=
  ∀ s : State, s.wasReset = true → s.fsm = .fetching →
    (s.cyc ≤ 0 → ∃ u, step s = .next u ∧ u = { s with fsm := .halted, reply := u.reply }) ∧
    (0 < s.cyc → ∃ t, exec (fetchInstr s) s = .next t ∧ step s = .next (afterInstr t))

/-- 43_execution_engine.md, R169: what `execute` reports at the end of a run: `ok`, or the error of the fault
record; nothing before the end. The reply field that carries it is the model's port (log entry 4). -/
def Obligations.EndOfARunIsReportedToTheHost : Prop :=
  ∀ s t : State, s.wasReset = true → s.fsm = .fetching → step s = .next t →
    (t.fsm = .fetching ∧ t.reply = s.reply) ∨
    (EndedNormally t ∧ t.reply = some .ok) ∨
    (EndedInFault t ∧ ∃ opcode faultPc, t.fault = some (.unknownOpcode opcode faultPc) ∧
      t.reply = some (.errorUnknownOpcode opcode faultPc))

/-- 60_exceptions.md, R182, with R155: a ready core at a byte that has no descriptor records the byte and its
address, halts with the error, and reports the pair to the host, through the model's port (log entry 4). -/
def Obligations.UnknownOpcodeIsRecordedAndReported : Prop :=
  ∀ s : State, Ready s → descriptor (cell s s.pc) = none →
    ∃ t, step s = .next t ∧ t.fsm = .haltedWithError ∧
      t.fault = some (.unknownOpcode (cell s s.pc) s.pc) ∧
      t.reply = some (.errorUnknownOpcode (cell s s.pc) s.pc)

/-- 43_execution_engine.md, R151, R152: `execute` loads the counter, replacing what was left of it, and the
first fetch is next; with a budget that is not positive the run is over at once (the spec's decisions D7 and
D8). -/
def Obligations.ExecuteLoadsTheCounter : Prop :=
  ∀ (s : State) (b : Budget) (rest : List HostCommand),
    s.wasReset = true → s.fsm = .idle ∨ s.fsm = .halted → s.commands = .execute b :: rest →
    (0 < b.toInt → step s = .next { s with commands := rest, cyc := b.toInt, fsm := .fetching }) ∧
    (b.toInt ≤ 0 → step s = .next { s with
      commands := rest, cyc := b.toInt, fsm := .halted, reply := some .ok })

/-- 43_execution_engine.md, R159 (the spec's decision D10): `execute` after a fault changes nothing of the core
and reports the same error again. -/
def Obligations.ExecuteAfterAFaultReportsItAgain : Prop :=
  ∀ (s : State) (b : Budget) (rest : List HostCommand) (opcode : Byte) (faultPc : Word),
    s.wasReset = true → s.fsm = .haltedWithError → s.fault = some (.unknownOpcode opcode faultPc) →
    s.commands = .execute b :: rest →
    step s = .next { s with commands := rest, reply := some (.errorUnknownOpcode opcode faultPc) }

/-- 10_state.md, R38 (the spec's decision D11): `execute` before any reset is refused. -/
def Obligations.ExecuteBeforeResetIsRefused : Prop :=
  ∀ (s : State) (b : Budget) (rest : List HostCommand),
    s.wasReset = false → s.commands = .execute b :: rest → step s = .refused .executeBeforeReset

/-- 43_execution_engine.md, R159, and 60_exceptions.md, R187 (the spec's decision D10): nothing but reset leaves
`HaltedWithError` or clears the record. -/
def Obligations.OnlyResetLeavesTheFaultedState : Prop :=
  ∀ s : State, s.wasReset = true → s.fsm = .haltedWithError →
    (∀ rest, s.commands ≠ .reset :: rest) →
    ∃ t, step s = .next t ∧ t.fsm = .haltedWithError ∧ t.fault = s.fault ∧ t.cyc = s.cyc

/-- 60_exceptions.md, R192 (an inference of the spec): `execute(1)` runs exactly one instruction, whatever it
costs, and the run is over after it. -/
def Obligations.ExecuteOneIsASingleStep : Prop :=
  ∀ (s : State) (rest : List HostCommand), s.wasReset = true → s.fsm = .idle ∨ s.fsm = .halted →
    s.commands = .execute 1 :: rest →
    ∃ u t, exec (fetchInstr s) { s with commands := rest, cyc := 1, fsm := .fetching } = .next u ∧
      Host.Core.run core 2 s = .next t ∧ (EndedNormally t ∨ EndedInFault t) ∧
      t = { u with fsm := t.fsm, reply := t.reply }

/-- 43_execution_engine.md, R173: what is left of the counter from before does not reach the run: two cores
that differ in it alone are the same after `execute`. -/
def Obligations.ExecuteForgetsTheOldCounter : Prop :=
  ∀ (s : State) (b : Budget) (rest : List HostCommand) (c : Int),
    s.wasReset = true → s.fsm = .idle ∨ s.fsm = .halted → s.commands = .execute b :: rest →
    ∃ t, step s = .next t ∧ step { s with cyc := c } = .next t

/-! ### Reset and the host port -/

/-- R203: reset zeroes the accumulator, both index registers and every flag, sets the stack pointer to its
initial value and fills memory with zero, from every state in which the host may act. -/
def Obligations.ResetZeroesRegistersFlagsAndMemory : Prop :=
  ∀ (s : State) (rest : List HostCommand), HostsTurn s → s.commands = .reset :: rest →
    ∃ t, step s = .next t ∧ t.a = 0x00 ∧ t.x = 0x00 ∧ t.y = 0x00 ∧
      t.flags.c = false ∧ t.flags.z = false ∧ t.flags.i = false ∧ t.flags.d = false ∧
      t.flags.b = false ∧ t.flags.v = false ∧ t.flags.n = false ∧
      t.sp = Config.spReset ∧ (∀ a, cell t a = 0x00)

/-- 70_reset_and_hazards.md, R204 (an inference of the spec): nothing of the core survives a reset: it leads to
the one state after reset, with the host's own port beside it (log entry 4). -/
def Obligations.NothingSurvivesAReset : Prop :=
  ∀ (s : State) (rest : List HostCommand), HostsTurn s → s.commands = .reset :: rest →
    step s = .next { State.reset with commands := rest, reply := some .done }

/-- 70_reset_and_hazards.md, R202 (with the spec's decision D15): under `vector_indirect` the entry point is the
word the host stored at the vector, read before memory is zeroed; all else is as under `direct`. -/
def Obligations.VectorIndirectResetReadsTheVectorFirst : Prop :=
  ∀ s : State,
    (resetCore .vectorIndirect s).pc.toNat =
      (cell s (Config.resetVectorAddr + 1)).toNat * 256 + (cell s Config.resetVectorAddr).toNat ∧
    (resetCore .direct s).pc = Config.resetVectorAddr ∧
    resetCore .vectorIndirect s =
      { resetCore .direct s with pc := (resetCore .vectorIndirect s).pc } ∧
    (∀ (p : ResetPolicy) (a : Word), cell (resetCore p s) a = 0x00)

/-- 10_state.md, R36: the state after reset, field by field. The numbers of `SP` and `pc`, and the values of
`cyc`, `fsm`, `fault` and `wasReset`, are the spec's decisions D1, D3, D11, D16; the empty host port is the
model's (log entry 4). -/
def Obligations.ValuesAfterReset : Prop :=
  State.reset.a = 0x00 ∧ State.reset.x = 0x00 ∧ State.reset.y = 0x00 ∧ State.reset.sp = 0xFF ∧
  State.reset.pc = 0xFFFC ∧ State.reset.flags = ⟨false, false, false, false, false, false, false⟩ ∧
  (∀ a, cell State.reset a = 0x00) ∧ State.reset.cyc = 0 ∧ State.reset.fsm = .idle ∧
  State.reset.fault = none ∧ State.reset.wasReset = true ∧ State.reset.commands = [] ∧
  State.reset.reply = none

/-- 43_execution_engine.md, R168, R170 (the spec's decision D12): a host write changes what it names and nothing
else of the core, with no cycle charged. -/
def Obligations.HostWritesChangeWhatTheyName : Prop :=
  ∀ (s : State) (b : Byte) (w a : Word) (v : Bool) (f : FlagName),
    (∃ t, hostCommand (.pokeMem a b) s = .next t ∧
      t = { s with mem := t.mem, reply := some .done } ∧ cell t a = b ∧ ∀ c, c ≠ a → cell t c = cell s c) ∧
    (∃ t, hostCommand (.pokeMemWord a w) s = .next t ∧
      t = { s with mem := t.mem, reply := some .done } ∧ cell t a = loByte w ∧ cell t (a + 1) = hiByte w ∧
      ∀ c, c ≠ a → c ≠ a + 1 → cell t c = cell s c) ∧
    hostCommand (.pokeReg .a b) s = .next { s with a := b, reply := some .done } ∧
    hostCommand (.pokeReg .x b) s = .next { s with x := b, reply := some .done } ∧
    hostCommand (.pokeReg .y b) s = .next { s with y := b, reply := some .done } ∧
    hostCommand (.pokeReg .sp b) s = .next { s with sp := b, reply := some .done } ∧
    hostCommand (.pokePc w) s = .next { s with pc := w, reply := some .done } ∧
    hostCommand (.pokeFlag f v) s = .next { s with
      flags := ⟨if f = .c then v else s.flags.c, if f = .z then v else s.flags.z,
        if f = .i then v else s.flags.i, if f = .d then v else s.flags.d,
        if f = .b then v else s.flags.b, if f = .v then v else s.flags.v,
        if f = .n then v else s.flags.n⟩
      reply := some .done }

/-- R171: a host read answers what it names and changes nothing of the core. -/
def Obligations.HostReadsChangeNothing : Prop :=
  ∀ (s : State) (a : Word),
    hostCommand (.peekMem a) s = .next { s with reply := some (.byte (cell s a)) } ∧
    hostCommand (.peekMemWord a) s =
      .next { s with reply := some (.word (wordOf (cell s (a + 1)) (cell s a))) } ∧
    hostCommand .peekState s = .next { s with reply := some (.view
      ⟨s.a, s.x, s.y, s.sp, s.pc, s.flags, s.cyc, s.fsm, s.fault⟩) }

/-- 43_execution_engine.md, R159, R168, R173: the core acts on nothing but the host's oldest command while it is
not running, is stable without one, and looks at none while it runs (the queue is the model's, log entry 4). -/
def Obligations.HostActsOnlyBetweenRuns : Prop :=
  (∀ s : State, HostsTurn s → s.commands = [] → step s = .next s) ∧
  (∀ (s : State) (c : HostCommand) (rest : List HostCommand), HostsTurn s → s.commands = c :: rest →
    step s = hostCommand c { s with commands := rest }) ∧
  (∀ (s : State) (q : List HostCommand), Ready s →
    ∃ t, step s = .next t ∧ t.commands = s.commands ∧
      step { s with commands := q } = .next { t with commands := q })

/-! ### Invariants and runs -/

/-- The invariant holds right after reset. -/
def Obligations.InvariantAfterReset : Prop := Inv State.reset

/-- Every step keeps the invariant (10_state.md, R39, and the canonical form of the memory list). -/
def Obligations.EveryStepKeepsTheInvariant : Prop :=
  ∀ s t : State, Inv s → step s = .next t → Inv t

/-- No state that meets the invariant stops with a fault, and a step is refused in one case only. No handler can
fail (43_execution_engine.md, R157), no memory access can (20_memory.md section 2), and an unknown opcode ends the
run in a next state. The refusal is 10_state.md, R38, which the spec marks as its decision D11 (log entry 8). That
the other host commands are answered before the first reset too is the model's choice (log entry 8), as is that a
step with no command waiting answers a next state (log entry 4). -/
def Obligations.OnlyExecuteBeforeResetStopsTheMachine : Prop :=
  ∀ s : State, Inv s →
    (∃ t, step s = .next t) ∨
    (step s = .refused .executeBeforeReset ∧ s.wasReset = false ∧
      ∃ b rest, s.commands = .execute b :: rest)

/-- 00_scope.md, R19, and 43_execution_engine.md, R165 (the counts are inferences of the spec): a run ends, after
at most half as many instructions as it has cycles left, rounded up, in one of two ways; a normal end has
overshot by at most 5. The host's queue is untouched. -/
def Obligations.EveryRunEnds : Prop :=
  ∀ s : State, Ready s → ∃ (n : Nat) (t : State), (n : Int) ≤ (s.cyc + 1) / 2 ∧
    Host.Core.run core n s = .next t ∧ t.commands = s.commands ∧
    ((EndedNormally t ∧ -5 ≤ t.cyc ∧ t.cyc ≤ 0) ∨ (EndedInFault t ∧ 0 ≤ t.cyc))

/-- 10_state.md, R22, R23, R29, R34, and 42_jump_to_subroutine.md, R140: with no host command, however many steps
run and from whatever state, `X`, `Y` and the five inert flags stay, and no cell outside the stack page
0x0100 to 0x01FF changes (the page is the spec's decision D4). -/
def Obligations.RunsWriteOnlyTheStackPage : Prop :=
  ∀ (n : Nat) (s t : State), s.commands = [] → Host.Core.run core n s = .next t →
    t.x = s.x ∧ t.y = s.y ∧ t.flags = { s.flags with z := t.flags.z, n := t.flags.n } ∧
    (∀ a : Word, a.toNat < 0x0100 ∨ 0x01FF < a.toNat → cell t a = cell s a)
end

