-- ==== Sys2Proof/Laws/Bits.lean ====
section
/-! SUPPORT. The laws of the byte and word helpers and of the indexed add. -/

namespace Sys2Proof.Machine

theorem loByte_wordOf (hi lo : Byte) : loByte (wordOf hi lo) = lo := by
  unfold loByte wordOf
  ext i hi'
  simp only [BitVec.getElem_extractLsb', BitVec.getLsbD_append]
  simp [show i < 8 by omega]

theorem hiByte_wordOf (hi lo : Byte) : hiByte (wordOf hi lo) = hi := by
  unfold hiByte wordOf
  ext i hi'
  simp only [BitVec.getElem_extractLsb', BitVec.getLsbD_append]
  simp [show i < 8 by omega]

theorem wordOf_bytes (v : Word) : wordOf (hiByte v) (loByte v) = v := by
  unfold loByte hiByte wordOf
  ext i hi
  simp only [BitVec.getElem_append, BitVec.getElem_extractLsb']
  split <;> rename_i h
  · simp [BitVec.getLsbD_eq_getElem hi]
  · rw [show 8 + (i - 8) = i by omega, BitVec.getLsbD_eq_getElem hi]

theorem wordOf_toNat (hi lo : Byte) : (wordOf hi lo).toNat = hi.toNat * 256 + lo.toNat := by
  have hl := lo.isLt
  simp only [wordOf, BitVec.toNat_append, Nat.shiftLeft_eq]
  rw [← Nat.shiftLeft_eq, ← Nat.shiftLeft_add_eq_or_of_lt hl, Nat.shiftLeft_eq]

theorem loByte_toNat (v : Word) : (loByte v).toNat = v.toNat % 256 := by
  simp [loByte, BitVec.extractLsb'_toNat]

theorem hiByte_toNat (v : Word) : (hiByte v).toNat = v.toNat / 256 := by
  have := v.isLt
  simp only [hiByte, BitVec.extractLsb'_toNat, Nat.shiftRight_eq_div_pow]
  omega

theorem zext16_toNat (v : Byte) : (zext16 v).toNat = v.toNat := by
  have := v.isLt
  simp only [zext16, BitVec.toNat_setWidth]
  omega

theorem inc16_toNat (v : Word) : (inc16 v).toNat = (v.toNat + 1) % 65536 := by
  simp [inc16, BitVec.toNat_add]

/-- An address and the one above it are different cells, also across the wrap. -/
theorem inc16_toNat_ne (v : Word) : (inc16 v).toNat ≠ v.toNat := by
  have := v.isLt
  rw [inc16_toNat]
  omega

theorem inc16_inc16 (v : Word) : inc16 (inc16 v) = v + 2 := by
  unfold inc16
  rw [BitVec.add_assoc]
  rfl

/-- The crossed test is a statement about numbers. -/
theorem pageCrossed_iff (base : Word) (idx : Byte) :
    pageCrossed base idx = true ↔ base.toNat % 256 + idx.toNat > 255 := by
  simp [pageCrossed, loByte_toNat]

theorem addIdx_toNat (base : Word) (idx : Byte) :
    (addIdx base idx).1.toNat = (base.toNat + idx.toNat) % 65536 := by
  simp [addIdx, BitVec.toNat_add, zext16_toNat]

end Sys2Proof.Machine
end

