-- ==== Sys2Proof/Laws/Decode.lean ====
section
/-! SUPPORT. The laws of the decoder's look-up. -/

namespace Sys2Proof

open Sys2Proof.Machine

/-- A byte has no descriptor exactly when it is none of the seven opcodes. -/
theorem descriptor_eq_none_iff (opcode : Byte) :
    descriptor opcode = none ↔ opcode ∉ Config.opcodes := by
  revert opcode
  decide

/-- An `unknown` instruction is well-formed exactly when its byte has no descriptor. -/
theorem wellFormed_unknown_iff (opcode : Byte) :
    (Instr.unknown opcode).wellFormed = true ↔ descriptor opcode = none := by
  rw [descriptor_eq_none_iff]
  simp [Instr.wellFormed]

/-! The seven rows, by the parameter that names their opcode. -/

theorem decodeBytes_ldaImm (b1 b2 : Byte) : decodeBytes Config.opcLdaImm b1 b2 = .ldaImm b1 := rfl
theorem decodeBytes_ldaZp (b1 b2 : Byte) : decodeBytes Config.opcLdaZp b1 b2 = .ldaZp b1 := rfl
theorem decodeBytes_ldaZpx (b1 b2 : Byte) : decodeBytes Config.opcLdaZpx b1 b2 = .ldaZpx b1 := rfl
theorem decodeBytes_ldaAbs (b1 b2 : Byte) : decodeBytes Config.opcLdaAbs b1 b2 = .ldaAbs (wordOf b2 b1) := rfl
theorem decodeBytes_ldaAbx (b1 b2 : Byte) : decodeBytes Config.opcLdaAbx b1 b2 = .ldaAbx (wordOf b2 b1) := rfl
theorem decodeBytes_ldaAby (b1 b2 : Byte) : decodeBytes Config.opcLdaAby b1 b2 = .ldaAby (wordOf b2 b1) := rfl
theorem decodeBytes_jsr (b1 b2 : Byte) : decodeBytes Config.opcJsr b1 b2 = .jsr (wordOf b2 b1) := rfl

theorem decodeBytes_unknown {opcode : Byte} (h : descriptor opcode = none) (b1 b2 : Byte) :
    decodeBytes opcode b1 b2 = .unknown opcode := by
  simp [decodeBytes, h]

/-- Only a byte with no descriptor decodes to an `unknown` instruction, and to that byte's own. -/
theorem decodeBytes_eq_unknown {b0 b1 b2 opcode : Byte} (h : decodeBytes b0 b1 b2 = .unknown opcode) :
    b0 = opcode ∧ descriptor opcode = none := by
  unfold decodeBytes at h
  split at h
  · next d _ =>
    obtain ⟨m, _, _⟩ := d
    cases m <;> simp [instrOf] at h
  · next hd =>
    simp only [Instr.unknown.injEq] at h
    exact ⟨h, h ▸ hd⟩

end Sys2Proof
end

