-- ==== Sys2Proof/Laws/Memory.lean ====
section
/-! SUPPORT. The laws of the memory list: read after write, write leaves every other cell alone, the
canonical form is kept, and two canonical memories that read the same are the same list. -/

namespace Sys2Proof.Machine

theorem memGet_filter_self (m : Memory) (a : Nat) :
    memGet (m.filter (fun c => c.1 != a)) a = Config.initByte := by
  induction m with
  | nil => rfl
  | cons c rest ih =>
    obtain ⟨b, w⟩ := c
    by_cases h : b = a
    · simpa [h] using ih
    · simpa [h, memGet, Ne.symm h] using ih

theorem memGet_filter_other (m : Memory) {a b : Nat} (h : b ≠ a) :
    memGet (m.filter (fun c => c.1 != a)) b = memGet m b := by
  induction m with
  | nil => rfl
  | cons c rest ih =>
    obtain ⟨d, w⟩ := c
    by_cases hd : d = a
    · subst hd
      simpa [memGet, h] using ih
    · simp [hd, memGet, ih]

/-- Inserting lists one more cell; the others are read as before. -/
theorem memGet_insert_other (m : Memory) {a b : Nat} (v : Byte) (h : b ≠ a) :
    memGet (memInsert a v m) b = memGet m b := by
  induction m with
  | nil => simp [memInsert, memGet, h]
  | cons c rest ih =>
    obtain ⟨d, w⟩ := c
    unfold memInsert
    split
    · simp [memGet, h]
    · simp [memGet, ih]

theorem memGet_insert_self (m : Memory) (a : Nat) (v : Byte) (h : ∀ c ∈ m, c.1 ≠ a) :
    memGet (memInsert a v m) a = v := by
  induction m with
  | nil => simp [memInsert, memGet]
  | cons c rest ih =>
    obtain ⟨d, w⟩ := c
    have hd : d ≠ a := h (d, w) (by simp)
    unfold memInsert
    split
    · simp [memGet]
    · simp [memGet, hd.symm, ih fun e he => h e (by simp [he])]

/-- A cell that was written reads as what was written. -/
theorem memGet_memSet_self (m : Memory) (a : Nat) (v : Byte) : memGet (memSet m a v) a = v := by
  unfold memSet
  split
  · next h => rw [memGet_filter_self, h]
  · exact memGet_insert_self _ _ _ (by simp)

/-- A write leaves every other cell alone. -/
theorem memGet_memSet_other (m : Memory) {a b : Nat} (v : Byte) (h : b ≠ a) :
    memGet (memSet m a v) b = memGet m b := by
  unfold memSet
  split
  · exact memGet_filter_other m h
  · rw [memGet_insert_other _ _ h, memGet_filter_other m h]

theorem memGet_memSet (m : Memory) (a b : Nat) (v : Byte) :
    memGet (memSet m a v) b = if b = a then v else memGet m b := by
  split
  · next h => rw [h, memGet_memSet_self]
  · next h => exact memGet_memSet_other m v h

/-! ### The canonical form -/

theorem wfFrom_cons {lo a : Nat} {v : Byte} {rest : Memory} :
    Memory.wfFrom lo ((a, v) :: rest) = true ↔
      lo ≤ a ∧ a < 65536 ∧ v ≠ Config.initByte ∧ Memory.wfFrom (a + 1) rest = true := by
  simp only [Memory.wfFrom, Bool.and_eq_true, decide_eq_true_eq]
  tauto

theorem wfFrom_mono {lo lo' : Nat} {m : Memory} (h : Memory.wfFrom lo m = true) (hl : lo' ≤ lo) :
    Memory.wfFrom lo' m = true := by
  cases m with
  | nil => rfl
  | cons c rest =>
    obtain ⟨a, v⟩ := c
    rw [wfFrom_cons] at h ⊢
    exact ⟨by omega, h.2⟩

theorem wfFrom_filter {lo : Nat} {m : Memory} (p : Host.Cell → Bool) (h : Memory.wfFrom lo m = true) :
    Memory.wfFrom lo (m.filter p) = true := by
  induction m generalizing lo with
  | nil => rfl
  | cons c rest ih =>
    obtain ⟨a, v⟩ := c
    obtain ⟨h1, h2, h3, h4⟩ := wfFrom_cons.1 h
    by_cases hp : p (a, v) = true
    · rw [List.filter_cons_of_pos hp, wfFrom_cons]
      exact ⟨h1, h2, h3, ih h4⟩
    · rw [List.filter_cons_of_neg hp]
      exact wfFrom_mono (ih h4) (by omega)

theorem wfFrom_insert {lo a : Nat} {v : Byte} {m : Memory} (hlo : lo ≤ a) (ha : a < 65536)
    (hv : v ≠ Config.initByte) (hm : ∀ c ∈ m, c.1 ≠ a) (h : Memory.wfFrom lo m = true) :
    Memory.wfFrom lo (memInsert a v m) = true := by
  induction m generalizing lo with
  | nil => simp [memInsert, Memory.wfFrom, hlo, ha, hv]
  | cons c rest ih =>
    obtain ⟨b, w⟩ := c
    have hb : b ≠ a := hm (b, w) (by simp)
    obtain ⟨h1, h2, h3, h4⟩ := wfFrom_cons.1 h
    unfold memInsert
    split
    · exact wfFrom_cons.2 ⟨hlo, ha, hv, wfFrom_cons.2 ⟨by omega, h2, h3, h4⟩⟩
    · exact wfFrom_cons.2 ⟨h1, h2, h3, ih (by omega) (fun e he => hm e (by simp [he])) h4⟩

/-- Writing a cell keeps the canonical form. -/
theorem memSet_wf {m : Memory} (a : Word) (v : Byte) (h : m.wf = true) :
    (memSet m a.toNat v).wf = true := by
  unfold memSet
  split
  · exact wfFrom_filter _ h
  · next hv => exact wfFrom_insert (Nat.zero_le _) a.isLt hv (by simp) (wfFrom_filter _ h)

theorem memGet_below {lo a : Nat} {m : Memory} (h : Memory.wfFrom lo m = true) (ha : a < lo) :
    memGet m a = Config.initByte := by
  induction m generalizing lo with
  | nil => rfl
  | cons c rest ih =>
    obtain ⟨b, w⟩ := c
    obtain ⟨h1, -, -, h4⟩ := wfFrom_cons.1 h
    rw [memGet, if_neg (by omega)]
    exact ih h4 (by omega)

/-- Equal memories are equal lists: two canonical lists that read the same everywhere are the same. -/
theorem wfFrom_ext {lo : Nat} {m m' : Memory} (h : Memory.wfFrom lo m = true)
    (h' : Memory.wfFrom lo m' = true) (he : ∀ a, memGet m a = memGet m' a) : m = m' := by
  induction m generalizing lo m' with
  | nil =>
    cases m' with
    | nil => rfl
    | cons c rest =>
      obtain ⟨b, w⟩ := c
      have := he b
      simp only [memGet, if_true] at this
      exact absurd this.symm (wfFrom_cons.1 h').2.2.1
  | cons c rest ih =>
    obtain ⟨a, v⟩ := c
    obtain ⟨-, -, h3, h4⟩ := wfFrom_cons.1 h
    cases m' with
    | nil =>
      have := he a
      simp only [memGet, if_true] at this
      exact absurd this h3
    | cons d rest' =>
      obtain ⟨b, w⟩ := d
      obtain ⟨-, -, g3, g4⟩ := wfFrom_cons.1 h'
      have hab : a = b := by
        rcases Nat.lt_trichotomy a b with hlt | heq | hgt
        · have := he a
          rw [memGet, if_pos rfl, memGet, if_neg (by omega), memGet_below g4 (by omega)] at this
          exact absurd this h3
        · exact heq
        · have := he b
          rw [memGet, if_neg (by omega), memGet_below h4 (by omega), memGet, if_pos rfl] at this
          exact absurd this.symm g3
      subst hab
      have hvw : v = w := by simpa [memGet] using he a
      subst hvw
      refine congrArg _ (ih h4 g4 fun x => ?_)
      by_cases hx : x = a
      · subst hx
        rw [memGet_below h4 (by omega), memGet_below g4 (by omega)]
      · simpa [memGet, hx] using he x

end Sys2Proof.Machine
end

