-- ==== Sys2Proof/Laws/State.lean ====
section
/-! SUPPORT. Beside the state: what each single update does to each field, so that no later proof unfolds a
record update. -/

namespace Sys2Proof.Machine

variable (s : State)

@[simp] theorem setCell_a (a : Word) (v : Byte) : (setCell a v s).a = s.a := rfl
@[simp] theorem setCell_x (a : Word) (v : Byte) : (setCell a v s).x = s.x := rfl
@[simp] theorem setCell_y (a : Word) (v : Byte) : (setCell a v s).y = s.y := rfl
@[simp] theorem setCell_sp (a : Word) (v : Byte) : (setCell a v s).sp = s.sp := rfl
@[simp] theorem setCell_pc (a : Word) (v : Byte) : (setCell a v s).pc = s.pc := rfl
@[simp] theorem setCell_flags (a : Word) (v : Byte) : (setCell a v s).flags = s.flags := rfl
@[simp] theorem setCell_fsm (a : Word) (v : Byte) : (setCell a v s).fsm = s.fsm := rfl
@[simp] theorem setCell_fault (a : Word) (v : Byte) : (setCell a v s).fault = s.fault := rfl
@[simp] theorem setCell_cyc (a : Word) (v : Byte) : (setCell a v s).cyc = s.cyc := rfl
@[simp] theorem setCell_wasReset (a : Word) (v : Byte) : (setCell a v s).wasReset = s.wasReset := rfl
@[simp] theorem setCell_mem (a : Word) (v : Byte) : (setCell a v s).mem = memSet s.mem a.toNat v := rfl
@[simp] theorem setCell_commands (a : Word) (v : Byte) : (setCell a v s).commands = s.commands := rfl
@[simp] theorem setCell_reply (a : Word) (v : Byte) : (setCell a v s).reply = s.reply := rfl

@[simp] theorem tick_a (k : Int) : (tick k s).a = s.a := rfl
@[simp] theorem tick_x (k : Int) : (tick k s).x = s.x := rfl
@[simp] theorem tick_y (k : Int) : (tick k s).y = s.y := rfl
@[simp] theorem tick_sp (k : Int) : (tick k s).sp = s.sp := rfl
@[simp] theorem tick_pc (k : Int) : (tick k s).pc = s.pc := rfl
@[simp] theorem tick_flags (k : Int) : (tick k s).flags = s.flags := rfl
@[simp] theorem tick_fsm (k : Int) : (tick k s).fsm = s.fsm := rfl
@[simp] theorem tick_fault (k : Int) : (tick k s).fault = s.fault := rfl
@[simp] theorem tick_cyc (k : Int) : (tick k s).cyc = s.cyc - k := rfl
@[simp] theorem tick_wasReset (k : Int) : (tick k s).wasReset = s.wasReset := rfl
@[simp] theorem tick_mem (k : Int) : (tick k s).mem = s.mem := rfl
@[simp] theorem tick_commands (k : Int) : (tick k s).commands = s.commands := rfl
@[simp] theorem tick_reply (k : Int) : (tick k s).reply = s.reply := rfl

@[simp] theorem setA_a (v : Byte) : (setA v s).a = v := rfl
@[simp] theorem setA_x (v : Byte) : (setA v s).x = s.x := rfl
@[simp] theorem setA_y (v : Byte) : (setA v s).y = s.y := rfl
@[simp] theorem setA_sp (v : Byte) : (setA v s).sp = s.sp := rfl
@[simp] theorem setA_pc (v : Byte) : (setA v s).pc = s.pc := rfl
@[simp] theorem setA_flags (v : Byte) : (setA v s).flags = s.flags := rfl
@[simp] theorem setA_fsm (v : Byte) : (setA v s).fsm = s.fsm := rfl
@[simp] theorem setA_fault (v : Byte) : (setA v s).fault = s.fault := rfl
@[simp] theorem setA_cyc (v : Byte) : (setA v s).cyc = s.cyc := rfl
@[simp] theorem setA_wasReset (v : Byte) : (setA v s).wasReset = s.wasReset := rfl
@[simp] theorem setA_mem (v : Byte) : (setA v s).mem = s.mem := rfl
@[simp] theorem setA_commands (v : Byte) : (setA v s).commands = s.commands := rfl
@[simp] theorem setA_reply (v : Byte) : (setA v s).reply = s.reply := rfl

@[simp] theorem setSp_a (v : Byte) : (setSp v s).a = s.a := rfl
@[simp] theorem setSp_x (v : Byte) : (setSp v s).x = s.x := rfl
@[simp] theorem setSp_y (v : Byte) : (setSp v s).y = s.y := rfl
@[simp] theorem setSp_sp (v : Byte) : (setSp v s).sp = v := rfl
@[simp] theorem setSp_pc (v : Byte) : (setSp v s).pc = s.pc := rfl
@[simp] theorem setSp_flags (v : Byte) : (setSp v s).flags = s.flags := rfl
@[simp] theorem setSp_fsm (v : Byte) : (setSp v s).fsm = s.fsm := rfl
@[simp] theorem setSp_fault (v : Byte) : (setSp v s).fault = s.fault := rfl
@[simp] theorem setSp_cyc (v : Byte) : (setSp v s).cyc = s.cyc := rfl
@[simp] theorem setSp_wasReset (v : Byte) : (setSp v s).wasReset = s.wasReset := rfl
@[simp] theorem setSp_mem (v : Byte) : (setSp v s).mem = s.mem := rfl
@[simp] theorem setSp_commands (v : Byte) : (setSp v s).commands = s.commands := rfl
@[simp] theorem setSp_reply (v : Byte) : (setSp v s).reply = s.reply := rfl

@[simp] theorem setPc_a (v : Word) : (setPc v s).a = s.a := rfl
@[simp] theorem setPc_x (v : Word) : (setPc v s).x = s.x := rfl
@[simp] theorem setPc_y (v : Word) : (setPc v s).y = s.y := rfl
@[simp] theorem setPc_sp (v : Word) : (setPc v s).sp = s.sp := rfl
@[simp] theorem setPc_pc (v : Word) : (setPc v s).pc = v := rfl
@[simp] theorem setPc_flags (v : Word) : (setPc v s).flags = s.flags := rfl
@[simp] theorem setPc_fsm (v : Word) : (setPc v s).fsm = s.fsm := rfl
@[simp] theorem setPc_fault (v : Word) : (setPc v s).fault = s.fault := rfl
@[simp] theorem setPc_cyc (v : Word) : (setPc v s).cyc = s.cyc := rfl
@[simp] theorem setPc_wasReset (v : Word) : (setPc v s).wasReset = s.wasReset := rfl
@[simp] theorem setPc_mem (v : Word) : (setPc v s).mem = s.mem := rfl
@[simp] theorem setPc_commands (v : Word) : (setPc v s).commands = s.commands := rfl
@[simp] theorem setPc_reply (v : Word) : (setPc v s).reply = s.reply := rfl

@[simp] theorem setFsm_a (f : Fsm) : (setFsm f s).a = s.a := rfl
@[simp] theorem setFsm_x (f : Fsm) : (setFsm f s).x = s.x := rfl
@[simp] theorem setFsm_y (f : Fsm) : (setFsm f s).y = s.y := rfl
@[simp] theorem setFsm_sp (f : Fsm) : (setFsm f s).sp = s.sp := rfl
@[simp] theorem setFsm_pc (f : Fsm) : (setFsm f s).pc = s.pc := rfl
@[simp] theorem setFsm_flags (f : Fsm) : (setFsm f s).flags = s.flags := rfl
@[simp] theorem setFsm_fsm (f : Fsm) : (setFsm f s).fsm = f := rfl
@[simp] theorem setFsm_fault (f : Fsm) : (setFsm f s).fault = s.fault := rfl
@[simp] theorem setFsm_cyc (f : Fsm) : (setFsm f s).cyc = s.cyc := rfl
@[simp] theorem setFsm_wasReset (f : Fsm) : (setFsm f s).wasReset = s.wasReset := rfl
@[simp] theorem setFsm_mem (f : Fsm) : (setFsm f s).mem = s.mem := rfl
@[simp] theorem setFsm_commands (f : Fsm) : (setFsm f s).commands = s.commands := rfl
@[simp] theorem setFsm_reply (f : Fsm) : (setFsm f s).reply = s.reply := rfl

@[simp] theorem answer_a (r : HostReply) : (answer r s).a = s.a := rfl
@[simp] theorem answer_x (r : HostReply) : (answer r s).x = s.x := rfl
@[simp] theorem answer_y (r : HostReply) : (answer r s).y = s.y := rfl
@[simp] theorem answer_sp (r : HostReply) : (answer r s).sp = s.sp := rfl
@[simp] theorem answer_pc (r : HostReply) : (answer r s).pc = s.pc := rfl
@[simp] theorem answer_flags (r : HostReply) : (answer r s).flags = s.flags := rfl
@[simp] theorem answer_fsm (r : HostReply) : (answer r s).fsm = s.fsm := rfl
@[simp] theorem answer_fault (r : HostReply) : (answer r s).fault = s.fault := rfl
@[simp] theorem answer_cyc (r : HostReply) : (answer r s).cyc = s.cyc := rfl
@[simp] theorem answer_wasReset (r : HostReply) : (answer r s).wasReset = s.wasReset := rfl
@[simp] theorem answer_mem (r : HostReply) : (answer r s).mem = s.mem := rfl
@[simp] theorem answer_commands (r : HostReply) : (answer r s).commands = s.commands := rfl
@[simp] theorem answer_reply (r : HostReply) : (answer r s).reply = some r := rfl

@[simp] theorem setZN_a : (setZN s).a = s.a := rfl
@[simp] theorem setZN_x : (setZN s).x = s.x := rfl
@[simp] theorem setZN_y : (setZN s).y = s.y := rfl
@[simp] theorem setZN_sp : (setZN s).sp = s.sp := rfl
@[simp] theorem setZN_pc : (setZN s).pc = s.pc := rfl
@[simp] theorem setZN_flags : (setZN s).flags = znFlags s.a s.flags := rfl
@[simp] theorem setZN_fsm : (setZN s).fsm = s.fsm := rfl
@[simp] theorem setZN_fault : (setZN s).fault = s.fault := rfl
@[simp] theorem setZN_cyc : (setZN s).cyc = s.cyc := rfl
@[simp] theorem setZN_wasReset : (setZN s).wasReset = s.wasReset := rfl
@[simp] theorem setZN_mem : (setZN s).mem = s.mem := rfl
@[simp] theorem setZN_commands : (setZN s).commands = s.commands := rfl
@[simp] theorem setZN_reply : (setZN s).reply = s.reply := rfl

@[simp] theorem memInit_a : (memInit s).a = s.a := rfl
@[simp] theorem memInit_x : (memInit s).x = s.x := rfl
@[simp] theorem memInit_y : (memInit s).y = s.y := rfl
@[simp] theorem memInit_sp : (memInit s).sp = s.sp := rfl
@[simp] theorem memInit_pc : (memInit s).pc = s.pc := rfl
@[simp] theorem memInit_flags : (memInit s).flags = s.flags := rfl
@[simp] theorem memInit_fsm : (memInit s).fsm = s.fsm := rfl
@[simp] theorem memInit_fault : (memInit s).fault = s.fault := rfl
@[simp] theorem memInit_cyc : (memInit s).cyc = s.cyc := rfl
@[simp] theorem memInit_wasReset : (memInit s).wasReset = s.wasReset := rfl
@[simp] theorem memInit_mem : (memInit s).mem = [] := rfl
@[simp] theorem memInit_commands : (memInit s).commands = s.commands := rfl
@[simp] theorem memInit_reply : (memInit s).reply = s.reply := rfl

@[simp] theorem takeByte_a : (takeByte s).a = s.a := rfl
@[simp] theorem takeByte_x : (takeByte s).x = s.x := rfl
@[simp] theorem takeByte_y : (takeByte s).y = s.y := rfl
@[simp] theorem takeByte_sp : (takeByte s).sp = s.sp := rfl
@[simp] theorem takeByte_pc : (takeByte s).pc = s.pc + 1 := rfl
@[simp] theorem takeByte_flags : (takeByte s).flags = s.flags := rfl
@[simp] theorem takeByte_fsm : (takeByte s).fsm = s.fsm := rfl
@[simp] theorem takeByte_fault : (takeByte s).fault = s.fault := rfl
@[simp] theorem takeByte_cyc : (takeByte s).cyc = s.cyc - 1 := rfl
@[simp] theorem takeByte_wasReset : (takeByte s).wasReset = s.wasReset := rfl
@[simp] theorem takeByte_mem : (takeByte s).mem = s.mem := rfl
@[simp] theorem takeByte_commands : (takeByte s).commands = s.commands := rfl
@[simp] theorem takeByte_reply : (takeByte s).reply = s.reply := rfl

@[simp] theorem znFlags_z (v : Byte) (f : Flags) : (znFlags v f).z = (v == 0x00) := rfl
@[simp] theorem znFlags_n (v : Byte) (f : Flags) : (znFlags v f).n = v.msb := rfl
@[simp] theorem znFlags_c (v : Byte) (f : Flags) : (znFlags v f).c = f.c := rfl
@[simp] theorem znFlags_i (v : Byte) (f : Flags) : (znFlags v f).i = f.i := rfl
@[simp] theorem znFlags_d (v : Byte) (f : Flags) : (znFlags v f).d = f.d := rfl
@[simp] theorem znFlags_b (v : Byte) (f : Flags) : (znFlags v f).b = f.b := rfl
@[simp] theorem znFlags_v (v : Byte) (f : Flags) : (znFlags v f).v = f.v := rfl

end Sys2Proof.Machine
end

