-- ==== Sys2Proof/Laws/Ops.lean ====
section
/-! SUPPORT. One lemma per shared operation: everything it does, so that callers do not unfold it. -/

namespace Sys2Proof.Machine

/-! ### Cells -/

theorem cell_setCell (s : State) (a b : Word) (v : Byte) :
    cell (setCell a v s) b = if b = a then v else cell s b := by
  simp only [cell, setCell_mem, memGet_memSet, BitVec.toNat_inj]

@[simp] theorem cell_setCell_self (s : State) (a : Word) (v : Byte) : cell (setCell a v s) a = v := by
  simp [cell_setCell]

theorem cell_setCell_other (s : State) {a b : Word} (v : Byte) (h : b ≠ a) :
    cell (setCell a v s) b = cell s b := by
  simp [cell_setCell, h]

/-- What a cell holds depends on the memory alone. -/
theorem cell_congr {s t : State} (h : s.mem = t.mem) (a : Word) : cell s a = cell t a := by
  simp [cell, h]

@[simp] theorem cell_tick (s : State) (k : Int) (a : Word) : cell (tick k s) a = cell s a := rfl
@[simp] theorem cell_setA (s : State) (v : Byte) (a : Word) : cell (setA v s) a = cell s a := rfl
@[simp] theorem cell_setSp (s : State) (v : Byte) (a : Word) : cell (setSp v s) a = cell s a := rfl
@[simp] theorem cell_setPc (s : State) (v : Word) (a : Word) : cell (setPc v s) a = cell s a := rfl
@[simp] theorem cell_setFsm (s : State) (f : Fsm) (a : Word) : cell (setFsm f s) a = cell s a := rfl
@[simp] theorem cell_answer (s : State) (r : HostReply) (a : Word) : cell (answer r s) a = cell s a := rfl
@[simp] theorem cell_setZN (s : State) (a : Word) : cell (setZN s) a = cell s a := rfl
@[simp] theorem cell_takeByte (s : State) (a : Word) : cell (takeByte s) a = cell s a := rfl
@[simp] theorem cell_memInit (s : State) (a : Word) : cell (memInit s) a = Config.initByte := rfl

/-! ### The memory port -/

theorem memRead8_eq (a : Word) (s : State) : memRead8 a s = (cell s a, { s with cyc := s.cyc - 1 }) := rfl

theorem memRead16_eq (a : Word) (s : State) :
    memRead16 a s = (wordOf (cell s (a + 1)) (cell s a), { s with cyc := s.cyc - 2 }) := by
  simp only [memRead16, memRead8, tick, inc16, Int.sub_sub]
  rfl

theorem memWrite8_eq (a : Word) (v : Byte) (s : State) :
    memWrite8 a v s = { s with mem := memSet s.mem a.toNat v, cyc := s.cyc - 1 } := rfl

theorem memWrite16_eq (a v : Word) (s : State) :
    memWrite16 a v s = { s with
      mem := memSet (memSet s.mem a.toNat (loByte v)) (a + 1).toNat (hiByte v)
      cyc := s.cyc - 2 } := by
  simp only [memWrite16, memWrite8, tick, setCell, inc16, Int.sub_sub]
  rfl

/-! ### Fetching -/

theorem takeByte_eq (s : State) : takeByte s = { s with pc := s.pc + 1, cyc := s.cyc - 1 } := rfl

theorem takeWord_eq (s : State) : takeWord s = { s with pc := s.pc + 2, cyc := s.cyc - 2 } := by
  simp only [takeWord, takeByte, setPc, tick, inc16, Int.sub_sub, BitVec.add_assoc]
  rfl

theorem fetchWord_eq (s : State) :
    fetchWord s = (wordOf (cell s (s.pc + 1)) (cell s s.pc), takeWord s) := rfl

theorem beginHandler_eq (s : State) :
    beginHandler s = { s with pc := s.pc + 1, cyc := s.cyc - 1, fsm := .runningHandler } := rfl

/-! ### The resolver and the handlers -/

/-- The part the two absolute indexed modes share: 1 cycle, or 2 with a carry out of the low byte. -/
theorem resolveIndexed_eq (base : Word) (idx : Byte) (s : State) :
    resolveIndexed base idx s =
      (cell s (base + zext16 idx), { s with cyc := s.cyc - (if pageCrossed base idx then 2 else 1) }) := by
  cases h : pageCrossed base idx <;> simp [resolveIndexed, addIdx, memRead8, h, tick, cell, Int.sub_sub]

/-- The handler `LDA` writes the accumulator and the two flags, nothing else. -/
theorem loadAccumulator_eq (r : Byte × State) :
    loadAccumulator r = { r.2 with a := r.1, flags := znFlags r.1 r.2.flags } := rfl

theorem push8_eq (b : Byte) (s : State) :
    push8 b s = { s with
      mem := memSet s.mem (stackAddr s.sp).toNat b
      sp := s.sp - 1
      cyc := s.cyc - 1 } := rfl

/-- The handler `JSR`: two pushes, the jump, three cycles. -/
theorem jumpToSubroutine_eq (r : Word × State) :
    jumpToSubroutine r = { r.2 with
      mem := memSet (memSet r.2.mem (stackAddr r.2.sp).toNat (hiByte (r.2.pc - 1)))
        (stackAddr (r.2.sp - 1)).toNat (loByte (r.2.pc - 1))
      sp := r.2.sp - 1 - 1
      pc := r.1
      cyc := r.2.cyc - 3 } := by
  simp only [jumpToSubroutine, push8, memWrite8, tick, setCell, setPc, setSp, dec8, dec16, Int.sub_sub]
  rfl

theorem stackAddr_toNat (sp : Byte) : (stackAddr sp).toNat = 256 + sp.toNat := by
  have := sp.isLt
  have hb : Config.stackBase.toNat = 256 := rfl
  simp only [stackAddr, BitVec.toNat_add, zext16_toNat, hb]
  omega

/-- The two cells a jump-to-subroutine writes are different ones, also across the wrap of `SP`. -/
theorem stackAddr_ne (sp : Byte) : stackAddr sp ≠ stackAddr (sp - 1) := by
  intro h
  have h2 := congrArg BitVec.toNat h
  rw [stackAddr_toNat, stackAddr_toNat, BitVec.toNat_sub] at h2
  have := sp.isLt
  simp at h2
  omega

theorem raiseUnknownOpcode_eq (opcode : Byte) (faultPc : Word) (s : State) :
    raiseUnknownOpcode opcode faultPc s =
      { s with pc := faultPc, fsm := .haltedWithError, fault := some (.unknownOpcode opcode faultPc) } := rfl

/-! ### Ends of instructions and runs -/

theorem afterInstr_running {s : State} (h : s.fsm = .runningHandler) :
    afterInstr s = if 0 < s.cyc then setFsm .fetching s else haltRun s := by
  simp [afterInstr, h]

theorem afterInstr_error {s : State} (h : s.fsm = .haltedWithError) :
    afterInstr s = answer (reportOf s) s := by
  simp [afterInstr, h]

theorem haltRun_eq (s : State) : haltRun s = { s with fsm := .halted, reply := some .ok } := rfl

/-! ### The host port -/

/-- Reset leaves nothing of the state before it but the host's own port, and under `vector_indirect` the
entry point. -/
theorem resetCore_eq (p : ResetPolicy) (s : State) :
    resetCore p s =
      { State.reset with pc := entryPoint p s, commands := s.commands, reply := s.reply } := rfl

theorem resetCore_direct_eq (s : State) :
    resetCore .direct s = { State.reset with commands := s.commands, reply := s.reply } := rfl

theorem startRun_eq (b : Budget) (s : State) :
    startRun b s =
      if 0 < b.toInt then { s with cyc := b.toInt, fsm := .fetching }
      else { s with cyc := b.toInt, fsm := .halted, reply := some .ok } := rfl

/-- A host command never touches the queue, and only `reset` and `execute` touch the control state, the
fault record, the counter and `wasReset`. -/
theorem hostCommand_cases {c : HostCommand} {s t : State} (h : hostCommand c s = .next t) :
    (c = .reset ∧ t = answer .done (resetCore Config.resetPolicy s)) ∨
    (∃ b, c = .execute b ∧ s.wasReset = true ∧ s.fsm = .haltedWithError ∧ t = answer (reportOf s) s) ∨
    (∃ b, c = .execute b ∧ s.wasReset = true ∧ s.fsm ≠ .haltedWithError ∧ t = startRun b s) ∨
    (t.fsm = s.fsm ∧ t.fault = s.fault ∧ t.cyc = s.cyc ∧ t.wasReset = s.wasReset ∧
      t.commands = s.commands ∧ (s.mem.wf = true → t.mem.wf = true)) := by
  cases c with
  | reset =>
    simp only [hostCommand, Host.Outcome.next.injEq] at h
    exact .inl ⟨rfl, h.symm⟩
  | execute b =>
    simp only [hostCommand, hostExecute] at h
    split at h
    · next hw =>
      split at h <;> rename_i hf <;> simp only [Host.Outcome.next.injEq] at h
      · exact .inr (.inl ⟨b, rfl, hw, hf, h.symm⟩)
      all_goals exact .inr (.inr (.inl ⟨b, rfl, hw, by simp [hf], h.symm⟩))
    · simp at h
  | pokeMem a v =>
    simp only [hostCommand, Host.Outcome.next.injEq] at h
    subst h
    exact .inr (.inr (.inr ⟨rfl, rfl, rfl, rfl, rfl, fun hm => memSet_wf _ _ hm⟩))
  | pokeMemWord a v =>
    simp only [hostCommand, Host.Outcome.next.injEq] at h
    subst h
    exact .inr (.inr (.inr ⟨rfl, rfl, rfl, rfl, rfl, fun hm => memSet_wf _ _ (memSet_wf _ _ hm)⟩))
  | peekMem a =>
    simp only [hostCommand, Host.Outcome.next.injEq] at h
    subst h
    exact .inr (.inr (.inr ⟨rfl, rfl, rfl, rfl, rfl, id⟩))
  | peekMemWord a =>
    simp only [hostCommand, Host.Outcome.next.injEq] at h
    subst h
    exact .inr (.inr (.inr ⟨rfl, rfl, rfl, rfl, rfl, id⟩))
  | pokeReg r v =>
    simp only [hostCommand, Host.Outcome.next.injEq] at h
    subst h
    cases r <;> exact .inr (.inr (.inr ⟨rfl, rfl, rfl, rfl, rfl, id⟩))
  | pokePc v =>
    simp only [hostCommand, Host.Outcome.next.injEq] at h
    subst h
    exact .inr (.inr (.inr ⟨rfl, rfl, rfl, rfl, rfl, id⟩))
  | pokeFlag f v =>
    simp only [hostCommand, Host.Outcome.next.injEq] at h
    subst h
    exact .inr (.inr (.inr ⟨rfl, rfl, rfl, rfl, rfl, id⟩))
  | peekState =>
    simp only [hostCommand, Host.Outcome.next.injEq] at h
    subst h
    exact .inr (.inr (.inr ⟨rfl, rfl, rfl, rfl, rfl, id⟩))

end Sys2Proof.Machine
end

