-- ==== Sys2Proof/Laws/PerInstr.lean ====
section
/-! SUPPORT. Statements made per instruction. Family `RoundTrip`: decoding the bytes of a well-formed
instruction gives it back, with the bytes after it (spec/30_encoding.md R80 to R85). -/

namespace Sys2Proof.Laws

open Sys2Proof.Machine

/-- What the family `RoundTrip` says of one instruction. -/
def RoundTrip.Statement (i : Instr) : Prop :=
  i.wellFormed = true → ∀ rest, decode (encode i ++ rest) = .ok (i, rest)

theorem RoundTrip.ldaImm (imm8 : Byte) : RoundTrip.Statement (.ldaImm imm8) := by
  intro _ rest
  have h : descriptor Config.opcLdaImm = some ⟨.imm, 2, .lda⟩ := by decide
  simp [encode, decode, decodeBytes, operandCount, operandBytes, formatOf, instrOf, h]

theorem RoundTrip.ldaZp (zp8 : Byte) : RoundTrip.Statement (.ldaZp zp8) := by
  intro _ rest
  have h : descriptor Config.opcLdaZp = some ⟨.zp, 3, .lda⟩ := by decide
  simp [encode, decode, decodeBytes, operandCount, operandBytes, formatOf, instrOf, h]

theorem RoundTrip.ldaZpx (zp8 : Byte) : RoundTrip.Statement (.ldaZpx zp8) := by
  intro _ rest
  have h : descriptor Config.opcLdaZpx = some ⟨.zpx, 4, .lda⟩ := by decide
  simp [encode, decode, decodeBytes, operandCount, operandBytes, formatOf, instrOf, h]

theorem RoundTrip.ldaAbs (abs16 : Word) : RoundTrip.Statement (.ldaAbs abs16) := by
  intro _ rest
  have h : descriptor Config.opcLdaAbs = some ⟨.abs, 4, .lda⟩ := by decide
  simp [encode, absBytes, decode, decodeBytes, operandCount, operandBytes, formatOf, instrOf, h, wordOf_bytes]

theorem RoundTrip.ldaAbx (abs16 : Word) : RoundTrip.Statement (.ldaAbx abs16) := by
  intro _ rest
  have h : descriptor Config.opcLdaAbx = some ⟨.abx, 4, .lda⟩ := by decide
  simp [encode, absBytes, decode, decodeBytes, operandCount, operandBytes, formatOf, instrOf, h, wordOf_bytes]

theorem RoundTrip.ldaAby (abs16 : Word) : RoundTrip.Statement (.ldaAby abs16) := by
  intro _ rest
  have h : descriptor Config.opcLdaAby = some ⟨.aby, 4, .lda⟩ := by decide
  simp [encode, absBytes, decode, decodeBytes, operandCount, operandBytes, formatOf, instrOf, h, wordOf_bytes]

theorem RoundTrip.jsr (target : Word) : RoundTrip.Statement (.jsr target) := by
  intro _ rest
  have h : descriptor Config.opcJsr = some ⟨.jsrabs, 6, .jsr⟩ := by decide
  simp [encode, absBytes, decode, decodeBytes, operandCount, operandBytes, formatOf, instrOf, h, wordOf_bytes]

theorem RoundTrip.unknown (opcode : Byte) : RoundTrip.Statement (.unknown opcode) := by
  intro hw rest
  have h := (wellFormed_unknown_iff opcode).1 hw
  simp [encode, decode, decodeBytes, operandCount, h]

end Sys2Proof.Laws
end

