-- ==== Sys2Proof/Laws/Step.lean ====
section
/-! SUPPORT. What a step can do, said once. -/

namespace Sys2Proof.Machine

open Sys2Proof.Safety

/-- A core that is ready runs the instruction at `pc`, with the loop check after it. -/
theorem step_ready {s : State} (h : Ready s) : step s = finishInstr (exec (fetchInstr s) s) := by
  obtain ⟨hw, hf, hc⟩ := h
  simp [step, turnOf, hw, hf, coreTurn, hc]

theorem step_hostsTurn {s : State} (h : HostsTurn s) : step s = hostTurn s := by
  unfold HostsTurn at h
  simp [step, h]

/-- Whose turn it is, from the control state. -/
theorem turnOf_cases (s : State) :
    (turnOf s = .host ∧ (s.wasReset = false ∨ s.fsm = .idle ∨ s.fsm = .halted ∨ s.fsm = .haltedWithError)) ∨
    (turnOf s = .core ∧ s.wasReset = true ∧ s.fsm = .fetching) ∨
    (turnOf s = .insideInstr ∧ s.wasReset = true ∧ (s.fsm = .dispatching ∨ s.fsm = .runningHandler)) := by
  unfold turnOf
  cases hw : s.wasReset <;> cases hf : s.fsm <;> simp

/-- Every instruction completes: `exec` answers a next state, in one of two shapes. Either a handler ran,
which leaves the control state, the fault record and the host port as they were and charges 2 to 6 cycles;
or the opcode was unknown. -/
theorem exec_cases (i : Instr) (s : State) : ∃ t, exec i s = .next t ∧ t.wasReset = s.wasReset ∧
    t.commands = s.commands ∧ t.reply = s.reply ∧ t.x = s.x ∧ t.y = s.y ∧
    (s.mem.wf = true → t.mem.wf = true) ∧
    ((t.fsm = .runningHandler ∧ t.fault = s.fault ∧ t.cyc + 2 ≤ s.cyc ∧ s.cyc ≤ t.cyc + 6) ∨
     (∃ op, i = .unknown op ∧
        t = { s with cyc := s.cyc - 1, fsm := .haltedWithError, fault := some (.unknownOpcode op s.pc) })) := by
  cases i with
  | ldaImm v =>
    refine ⟨_, rfl, ?_⟩
    simp only [loadAccumulator_eq, resolveImm, beginHandler_eq, takeByte_eq]
    exact ⟨trivial, trivial, trivial, trivial, trivial, id, .inl ⟨trivial, trivial, by omega, by omega⟩⟩
  | ldaZp z =>
    refine ⟨_, rfl, ?_⟩
    simp only [loadAccumulator_eq, resolveZp, memRead8_eq, beginHandler_eq, takeByte_eq]
    exact ⟨trivial, trivial, trivial, trivial, trivial, id, .inl ⟨trivial, trivial, by omega, by omega⟩⟩
  | ldaZpx z =>
    refine ⟨_, rfl, ?_⟩
    simp only [loadAccumulator_eq, resolveZpx, memRead8_eq, beginHandler_eq, takeByte_eq, tick]
    exact ⟨trivial, trivial, trivial, trivial, trivial, id, .inl ⟨trivial, trivial, by omega, by omega⟩⟩
  | ldaAbs a =>
    refine ⟨_, rfl, ?_⟩
    simp only [loadAccumulator_eq, resolveAbs, memRead8_eq, beginHandler_eq, takeWord_eq]
    exact ⟨trivial, trivial, trivial, trivial, trivial, id, .inl ⟨trivial, trivial, by omega, by omega⟩⟩
  | ldaAbx a =>
    refine ⟨_, rfl, ?_⟩
    simp only [loadAccumulator_eq, resolveAbx, resolveIndexed_eq, beginHandler_eq, takeWord_eq]
    exact ⟨trivial, trivial, trivial, trivial, trivial, id,
      .inl ⟨trivial, trivial, by split <;> omega, by split <;> omega⟩⟩
  | ldaAby a =>
    refine ⟨_, rfl, ?_⟩
    simp only [loadAccumulator_eq, resolveAby, resolveIndexed_eq, beginHandler_eq, takeWord_eq]
    exact ⟨trivial, trivial, trivial, trivial, trivial, id,
      .inl ⟨trivial, trivial, by split <;> omega, by split <;> omega⟩⟩
  | jsr t =>
    refine ⟨_, rfl, ?_⟩
    simp only [jumpToSubroutine_eq, resolveJsrAbs, beginHandler_eq, takeWord_eq]
    exact ⟨trivial, trivial, trivial, trivial, trivial, fun h => memSet_wf _ _ (memSet_wf _ _ h),
      .inl ⟨trivial, trivial, by omega, by omega⟩⟩
  | unknown op =>
    refine ⟨_, rfl, ?_⟩
    exact ⟨rfl, rfl, rfl, rfl, rfl, id, .inr ⟨op, rfl, by
      simp only [raiseUnknownOpcode_eq, fetchOpcode, takeByte_eq, setFsm]⟩⟩

end Sys2Proof.Machine
end

