-- ==== Sys2Proof/Tests/Slice0.lean ====
section
/-! SUPPORT. The model's own tests: the check of well-formedness, words written out from the spec's encodings,
the spec's worked examples one step at a time, and a witness for the hypotheses of every statement. Expected
values are those of spec/95_test_vectors.md or of the rule named. -/

namespace Sys2Proof.Tests

open Sys2Proof.Machine Sys2Proof.Safety

/-! ### Helpers -/

/-- `s` with bytes from address `a` on. -/
def withBytes (a : Word) : List Byte → State → State
  | [], s => s
  | b :: rest, s => withBytes (a + 1) rest (setCell a b s)

/-- The core in a run, `cyc` cycles left, with bytes at `pc`; all else as after reset. -/
def running (pc : Word) (bytes : List Byte) (cyc : Int) : State :=
  { withBytes pc bytes State.reset with pc := pc, fsm := .fetching, cyc := cyc }

def nextOf : Host.Outcome State Fault Refusal → Option State
  | .next s => some s
  | .fault _ => none
  | .refused _ => none

/-- The state after one step, or `s` where there is none. -/
def after (s : State) : State := (nextOf (step s)).getD s

/-! ### Well-formedness: the check refuses an ill-formed term (R87) -/

theorem test_wellFormed_refuses_implemented_opcodes :
    Config.opcodes.all (fun opcode => !(Instr.unknown opcode).wellFormed) = true := by decide

theorem test_wellFormed_accepts_others :
    (Instr.unknown 0x00).wellFormed = true ∧ (Instr.unknown 0x60).wellFormed = true ∧
    (Instr.jsr 0xFFFF).wellFormed = true := by decide

/-! ### Decoding: the table's bit strings, byte 0 first, most significant bit first (R81, R92) -/

theorem test_decode_ldaImm : decodeTableWord 16 0b10000001_10101001 = some (.ldaImm 0x81) := by decide
theorem test_decode_ldaZp : decodeTableWord 16 0b01000010_10100101 = some (.ldaZp 0x42) := by decide
theorem test_decode_ldaZpx : decodeTableWord 16 0b11110000_10110101 = some (.ldaZpx 0xF0) := by decide
theorem test_decode_ldaAbs :
    decodeTableWord 24 0b01000100_10000000_10101101 = some (.ldaAbs 0x4480) := by decide
theorem test_decode_ldaAbx :
    decodeTableWord 24 0b01000100_11111111_10111101 = some (.ldaAbx 0x44FF) := by decide
theorem test_decode_ldaAby :
    decodeTableWord 24 0b01000100_00000010_10111001 = some (.ldaAby 0x4402) := by decide
theorem test_decode_jsr : decodeTableWord 24 0b00010010_00110100_00100000 = some (.jsr 0x1234) := by decide
theorem test_decode_unknown : decodeTableWord 8 0b01100000 = some (.unknown 0x60) := by decide
/-- The bits above `nbits` are zero (operand bytes of zeros). -/
theorem test_decode_short_word : decodeTableWord 8 0x123420 = some (.jsr 0x0000) := by decide

theorem test_decode_rejects_short_lists :
    decode [] = .error .noOpcode ∧ decode [0xA9] = .error (.missingOperand 0xA9) ∧
    decode [0x20, 0x34] = .error (.missingOperand 0x20) := ⟨rfl, rfl, rfl⟩

/-- The descriptor table against R85, in the table's order. -/
theorem test_descriptor_rows :
    Config.opcodes.map descriptor =
      [some ⟨.imm, 2, .lda⟩, some ⟨.zp, 3, .lda⟩, some ⟨.zpx, 4, .lda⟩, some ⟨.abs, 4, .lda⟩,
       some ⟨.abx, 4, .lda⟩, some ⟨.aby, 4, .lda⟩, some ⟨.jsrabs, 6, .jsr⟩] ∧
    Config.opcodes = [0xA9, 0xA5, 0xB5, 0xAD, 0xBD, 0xB9, 0x20] := by decide

/-! ### Worked examples, one step each -/

/-- S-3: `A9 80` at 0xFFFC, budget 2. -/
theorem test_ldaImm_negative :
    let t := after (running 0xFFFC [0xA9, 0x80] 2)
    t.a = 0x80 ∧ t.flags.z = false ∧ t.flags.n = true ∧ t.pc = 0xFFFE ∧ t.cyc = 0 ∧ t.fsm = .halted := by
  decide

/-- V-IMM, at the top of memory: the operand is at 0x0000. -/
theorem test_ldaImm_wraps :
    let t := after (running 0xFFFF [0xA9, 0x33] 2)
    t.a = 0x33 ∧ t.pc = 0x0001 ∧ t.cyc = 0 := by decide

/-- S-2: `A5 42` with a zero cell, budget 3. -/
theorem test_ldaZp_zero :
    let t := after (running 0xFFFC [0xA5, 0x42] 3)
    t.a = 0x00 ∧ t.flags.z = true ∧ t.flags.n = false ∧ t.pc = 0xFFFE ∧ t.cyc = 0 := by decide

/-- V-ZPX, first row: the sum wraps to 0x0000 and does not reach 0x0100. -/
theorem test_ldaZpx_stays_in_zero_page :
    let s := setCell 0x0000 0x11 (setCell 0x0100 0x22 (running 0x0200 [0xB5, 0xFF] 4))
    let t := after { s with x := 0x01 }
    t.a = 0x11 ∧ t.pc = 0x0202 ∧ t.cyc = 0 := by decide

/-- V-ABS, second row: the instruction loads its own opcode. -/
theorem test_ldaAbs_own_opcode :
    let t := after (running 0x0200 [0xAD, 0x00, 0x02] 4)
    t.a = 0xAD ∧ t.flags.n = true ∧ t.pc = 0x0203 ∧ t.cyc = 0 := by decide

/-- S-4: base 0x44FF, `X` = 1: 0x4500, 5 cycles. -/
theorem test_ldaAbx_crosses :
    let t := after { setCell 0x4500 0x5A (running 0xFFFC [0xBD, 0xFF, 0x44] 5) with x := 0x01 }
    t.a = 0x5A ∧ t.pc = 0xFFFF ∧ t.cyc = 0 := by decide

/-- V-ABX, third row: 0x00 + 0xFF does not cross, 4 cycles. -/
theorem test_ldaAbx_does_not_cross :
    let t := after { setCell 0x44FF 0x01 (running 0x0200 [0xBD, 0x00, 0x44] 1) with x := 0xFF }
    t.a = 0x01 ∧ t.pc = 0x0203 ∧ t.cyc = -3 := by decide

/-- V-ABY, last row: 0x02 + 0xFF crosses; an `X` beside it changes nothing. -/
theorem test_ldaAby_crosses :
    let t := after { running 0x0200 [0xB9, 0x02, 0x44] 1 with y := 0xFF, x := 0x77 }
    t.a = 0x00 ∧ t.flags.z = true ∧ t.pc = 0x0203 ∧ t.cyc = -4 := by decide

/-- R145: the first instruction of scenario 1. -/
theorem test_jsr_scenario_one :
    let t := after (running 0xFFFC [0x20, 0x42, 0x42] 8)
    t.pc = 0x4242 ∧ t.sp = 0xFD ∧ t.cyc = 2 ∧ cell t 0x01FF = 0xFF ∧ cell t 0x01FE = 0xFE ∧
    t.fsm = .fetching := by decide

/-- V-JSR, `SP` = 0: the low byte wraps to 0x01FF. -/
theorem test_jsr_stack_wraps :
    let t := after { running 0x0200 [0x20, 0x34, 0x12] 6 with sp := 0x00 }
    t.pc = 0x1234 ∧ t.sp = 0xFE ∧ cell t 0x0100 = 0x02 ∧ cell t 0x01FF = 0x02 ∧ t.cyc = 0 := by decide

/-- PG-4, its second step: the unknown opcode 0x60 at 0xFFFE with 8 cycles left. -/
theorem test_unknown_opcode :
    let t := after (running 0xFFFE [0x60] 8)
    t.fault = some (.unknownOpcode 0x60 0xFFFE) ∧ t.pc = 0xFFFE ∧ t.cyc = 7 ∧ t.fsm = .haltedWithError ∧
    t.reply = some (.errorUnknownOpcode 0x60 0xFFFE) := by decide

/-- V-MEM: a word written across the wrap; an address computed past the top (R51). -/
theorem test_memory_wraps :
    let s := memWrite16 0xFFFF 0xA55A State.reset
    cell s 0xFFFF = 0x5A ∧ cell s 0x0000 = 0xA5 ∧ (memRead16 0xFFFF s).1 = 0xA55A ∧
    (memRead8 (addrOf (0x10000 + 5)) (setCell 0x0005 0x77 s)).1 = 0x77 := by decide

/-- The canonical form: cells in order, and a cell written back to zero is no longer listed. -/
theorem test_memory_canonical :
    (setCell 0x0002 0x05 (setCell 0x0007 0x09 State.reset)).mem = [(2, 0x05), (7, 0x09)] ∧
    (setCell 0x0007 0x00 (setCell 0x0002 0x05 (setCell 0x0007 0x09 State.reset))).mem = [(2, 0x05)] := by
  decide

/-- V-RST: reset after host writes; and the alternative policy reads the vector first. -/
theorem test_reset :
    after { setCell 0x1000 0x99 State.reset with a := 0x55, commands := [.reset] } =
      { State.reset with reply := some .done } ∧
    (resetCore .vectorIndirect (withBytes 0xFFFC [0x00, 0x80] State.reset)).pc = 0x8000 := by decide

/-- The first instruction after reset, as the host places it. -/
theorem test_withFetchWord :
    (after (State.reset.withFetchWord 24 0x424220)).pc = 0x4242 ∧
    (after (State.reset.withFetchWord 16 0x12A9)).a = 0x12 := by decide

/-! ### Witnesses: concrete states and operands that meet a statement's hypotheses -/

theorem witness_DecodeOfEncodeIsTheInstruction : (Instr.unknown 0xFF).wellFormed = true := by decide

theorem witness_DecodedBytesAreTheEncoding :
    decode [0x20, 0x34, 0x12, 0xEE] = .ok (.jsr 0x1234, [0xEE]) := rfl

theorem witness_EveryOtherByteIsAnUnknownOpcode : descriptor 0x00 = none ∧ descriptor 0xA9 ≠ none := by decide

theorem witness_PageCrossingIsTheLowByteCarry :
    (∀ base, Instr.ldaImm 0x00 ≠ .ldaAbx base) ∧ (∀ base, Instr.ldaImm 0x00 ≠ .ldaAby base) ∧
    (∃ t, exec (.ldaImm 0x00) State.reset = .next t) ∧ ∃ t, exec (.ldaImm 0x00) (running 0 [] 9) = .next t :=
  ⟨by simp, by simp, ⟨_, rfl⟩, ⟨_, rfl⟩⟩

theorem witness_ByteWriteStoresOneCell :
    (0x0000 : Word).toNat = ((65536 : Int) % 65536).toNat ∧ (0xFFFF : Word).toNat = ((-1 : Int) % 65536).toNat ∧
    (0x0000 : Word) ≠ 0xFFFF := by decide

theorem witness_WordWrittenIsTheWordRead :
    (0x0001 : Word) ≠ 0xFFFF ∧ (0x0001 : Word) ≠ 0xFFFF + 1 := by decide

theorem witness_FetchSeesTheBytesInMemory :
    (Instr.jsr 0x1234).wellFormed = true ∧
    let s := running 0xFFFE [0x20, 0x34, 0x12] 1
    ∀ k, k < (Instr.jsr 0x1234).length →
      cell s (s.pc + BitVec.ofNat 16 k) = (encode (.jsr 0x1234)).getD k 0 := by decide

theorem witness_PlacedTableWordIsFetchedNext :
    decodeTableWord 24 0x1234AD = some (.ldaAbs 0x1234) ∧ (0x0000 : Word) ≠ 0xFFFC ∧
    (0x0000 : Word) ≠ 0xFFFC + 1 ∧ (0x0000 : Word) ≠ 0xFFFC + 2 := by decide

theorem witness_Loads : isLoad (.ldaZp 0x00) = true ∧ isLoad (.ldaAby 0xFFFF) = true ∧
    (∃ t, exec (.ldaZp 0x00) State.reset = .next t) ∧ ∃ t, exec (.ldaAby 0xFFFF) State.reset = .next t :=
  ⟨rfl, rfl, ⟨_, rfl⟩, ⟨_, rfl⟩⟩

/-- For the fetch clauses of the seven instruction statements, the top of memory included. -/
theorem witness_fetch_clauses :
    Config.opcodes.all (fun opcode =>
      let s := running 0xFFFF [opcode, 0x34, 0x12] 1
      cell s s.pc == opcode) = true := by decide

theorem witness_JumpToSubroutine :
    (0x0000 : Word) ≠ stackCell State.reset.sp.toNat ∧
    (0x0000 : Word) ≠ stackCell (State.reset.sp.toNat + 255) := by decide

theorem witness_PushedAddressResumesAfterTheJump :
    1 ≤ ({ State.reset with sp := 0x01 } : State).sp.toNat := by decide

theorem witness_PushStaysInTheStackPage :
    ({ State.reset with sp := 0x00 } : State).sp = 0x00 ∧ (0x0101 : Word) ≠ stackCell 0 := by decide

theorem witness_JumpToSubroutineFrame :
    (∃ t, exec (.jsr 0xFFFF) State.reset = .next t) ∧
    (0x01FD : Word) ≠ stackAddr State.reset.sp ∧ (0x01FD : Word) ≠ stackAddr (dec8 State.reset.sp) :=
  ⟨⟨_, rfl⟩, by decide, by decide⟩

theorem witness_UnknownOpcodeFrame : ∃ t, exec (.unknown 0x60) State.reset = .next t := ⟨_, rfl⟩

theorem witness_OnlyLoadsWriteFlagsAndOnlyJumpsWriteTheStackPointer :
    (∃ t, exec (.jsr 0x0000) State.reset = .next t) ∧ isLoad (.jsr 0x0000) = false ∧
    (∃ t, exec (.ldaImm 0xFF) State.reset = .next t) ∧ (∀ target, Instr.ldaImm 0xFF ≠ .jsr target) :=
  ⟨⟨_, rfl⟩, rfl, ⟨_, rfl⟩, by simp⟩

theorem witness_NoInstructionReadsAFlag : ∃ t, exec (.ldaImm 0x80) State.reset = .next t := ⟨_, rfl⟩

theorem witness_IndexRegistersAreReadOnlyByTheirModes :
    (∃ t, exec (.ldaAbx 0x44FF) State.reset = .next t) ∧ (∀ a, Instr.ldaAbx 0x44FF ≠ .ldaAby a) ∧
    (∃ t, exec (.ldaAby 0x44FF) State.reset = .next t) ∧ (∀ b, Instr.ldaAby 0x44FF ≠ .ldaZpx b) ∧
    (∀ a, Instr.ldaAby 0x44FF ≠ .ldaAbx a) :=
  ⟨⟨_, rfl⟩, by simp, ⟨_, rfl⟩, by simp, by simp⟩

theorem witness_CyclesChargedAreTheTimingTable :
    (Instr.jsr 0x0000).wellFormed = true ∧ (∀ opcode, Instr.jsr 0x0000 ≠ .unknown opcode) ∧
    (Instr.unknown 0x00).wellFormed = true := ⟨rfl, by simp, by decide⟩

theorem witness_StepRunsTheDecodedInstruction :
    let s := running 0xFFFF [0xA9, 0x33] 1
    Ready s ∧ decode [cell s s.pc, cell s (s.pc + 1), cell s (s.pc + 2)] = .ok (.ldaImm 0x33, [0x00]) :=
  ⟨⟨rfl, rfl, by decide⟩, rfl⟩

/-- The run goes on with 1 cycle left and is over with 0. -/
theorem witness_LoopCheckAfterTheHandler :
    (let s := running 0x0200 [0xA9, 0x33] 3
     Ready s ∧ ∃ t, exec (fetchInstr s) s = .next t ∧ t.fsm = .runningHandler ∧ t.cyc = 1) ∧
    (let s := running 0x0200 [0xA9, 0x33] 2
     Ready s ∧ ∃ t, exec (fetchInstr s) s = .next t ∧ t.fsm = .runningHandler ∧ t.cyc = 0) :=
  ⟨⟨⟨rfl, rfl, by decide⟩, _, rfl, rfl, rfl⟩, ⟨⟨rfl, rfl, by decide⟩, _, rfl, rfl, rfl⟩⟩

theorem witness_LoopCheckBeforeTheFetch :
    (running 0x0200 [] 0).wasReset = true ∧ (running 0x0200 [] 0).fsm = .fetching ∧
    (running 0x0200 [] 0).cyc ≤ 0 ∧ 0 < (running 0x0200 [] 1).cyc := by decide

/-- A run that goes on, one that ends normally, one that ends in the fault. -/
theorem witness_EndOfARunIsReportedToTheHost :
    (∃ t, step (running 0x0200 [0xA9, 0x33] 3) = .next t ∧ t.fsm = .fetching) ∧
    (∃ t, step (running 0x0200 [0xA9, 0x33] 2) = .next t ∧ t.fsm = .halted) ∧
    (∃ t, step (running 0x0200 [0x00] 1) = .next t ∧ t.fsm = .haltedWithError) :=
  ⟨⟨_, rfl, rfl⟩, ⟨_, rfl, rfl⟩, ⟨_, rfl, rfl⟩⟩

theorem witness_UnknownOpcodeIsRecordedAndReported :
    let s := running 0xFFFE [0x60] 1
    Ready s ∧ descriptor (cell s s.pc) = none := ⟨⟨rfl, rfl, by decide⟩, by decide⟩

/-- Budgets 1, 0 and the least one; from `Idle` and from `Halted`. -/
theorem witness_ExecuteLoadsTheCounter :
    State.reset.wasReset = true ∧ State.reset.fsm = .idle ∧
    ({ State.reset with fsm := .halted, cyc := -5 } : State).fsm = .halted ∧
    ({ State.reset with commands := [.execute 1] } : State).commands = .execute 1 :: [] ∧
    0 < (1 : Budget).toInt ∧ (0 : Budget).toInt ≤ 0 ∧ (0x80000000 : Budget).toInt = Config.cycMin := by decide

theorem witness_ExecuteAfterAFaultReportsItAgain :
    let s : State := { State.reset with
      fsm := .haltedWithError, fault := some (.unknownOpcode 0x60 0xFFFE), commands := [.execute 5] }
    s.wasReset = true ∧ s.fsm = .haltedWithError ∧ s.fault = some (.unknownOpcode 0x60 0xFFFE) ∧
    s.commands = .execute 5 :: [] := by decide

theorem witness_ExecuteBeforeResetIsRefused :
    let s : State := { State.reset with wasReset := false, commands := [.execute 1] }
    s.wasReset = false ∧ s.commands = .execute 1 :: [] := by decide

theorem witness_OnlyResetLeavesTheFaultedState :
    let s : State := { State.reset with
      fsm := .haltedWithError, fault := some (.unknownOpcode 0x60 0xFFFE), commands := [.execute 5] }
    s.wasReset = true ∧ s.fsm = .haltedWithError ∧ ∀ rest, s.commands ≠ .reset :: rest :=
  ⟨rfl, rfl, by simp⟩

theorem witness_ExecuteOneIsASingleStep :
    let s : State := { State.reset with commands := [.execute 1] }
    s.wasReset = true ∧ (s.fsm = .idle ∨ s.fsm = .halted) ∧ s.commands = .execute 1 :: [] :=
  ⟨rfl, .inl rfl, rfl⟩

theorem witness_ExecuteForgetsTheOldCounter :
    let s : State := { State.reset with fsm := .halted, cyc := -5, commands := [.execute 2] }
    s.wasReset = true ∧ (s.fsm = .idle ∨ s.fsm = .halted) ∧ s.commands = .execute 2 :: [] :=
  ⟨rfl, .inr rfl, rfl⟩

/-- Reset from a faulted state, and from a power-on state. -/
theorem witness_Reset :
    HostsTurn { State.reset with
      fsm := .haltedWithError, fault := some (.unknownOpcode 0x60 0xFFFE), commands := [.reset] } ∧
    HostsTurn { State.reset with wasReset := false, a := 0x77, fsm := .fetching, commands := [.reset] } :=
  ⟨rfl, rfl⟩

theorem witness_HostWritesChangeWhatTheyName :
    (0x0000 : Word) ≠ 0xFFFE ∧ (0x0000 : Word) ≠ 0xFFFE + 1 := by decide

theorem witness_HostActsOnlyBetweenRuns :
    HostsTurn State.reset ∧ State.reset.commands = [] ∧
    HostsTurn { State.reset with commands := [.peekState] } ∧ Ready (running 0xFFFC [] 1) :=
  ⟨rfl, rfl, rfl, rfl, rfl, by decide⟩

/-- The invariant holds of a running core, of a faulted one, and of a power-on state. -/
theorem witness_Inv :
    Inv (running 0xFFFC [0xA9, 0x01] 3) ∧
    Inv { State.reset with fsm := .haltedWithError, fault := some (.unknownOpcode 0x60 0xFFFE), cyc := 7 } ∧
    Inv { State.reset with wasReset := false, a := 0x77, fsm := .dispatching, commands := [.execute 1] } := by
  refine ⟨⟨by decide, by decide, by decide, by decide, ?_, by decide, by decide, by decide, by decide⟩,
    ⟨by decide, by decide, by decide, by decide, ?_, by decide, by decide, by decide, by decide⟩,
    ⟨by decide, by decide, by decide, by decide, ?_, by decide, by decide, by decide, by decide⟩⟩
  · intro _ _ _ h
    exact absurd ((show (running 0xFFFC [0xA9, 0x01] 3).fault = none from rfl).symm.trans h) (by simp)
  · intro _ _ _ h
    simp only [Option.some.injEq, FaultRecord.unknownOpcode.injEq] at h
    rw [← h.1]
    decide
  · intro h
    simp at h

/-- A step that goes on from a state with the invariant, for the statement that every step keeps it. -/
theorem witness_EveryStepKeepsTheInvariant :
    Inv (running 0xFFFC [0xA9, 0x01] 3) ∧ ∃ t, step (running 0xFFFC [0xA9, 0x01] 3) = .next t :=
  ⟨witness_Inv.1, _, rfl⟩

theorem witness_EveryRunEnds : Ready (running 0xFFFC [0x20, 0xFC, 0xFF] 1) := ⟨rfl, rfl, by decide⟩

theorem witness_RunsWriteOnlyTheStackPage :
    (running 0xFFFC [0x20, 0xFC, 0xFF] 12).commands = [] ∧
    (∃ t, Host.Core.run core 2 (running 0xFFFC [0x20, 0xFC, 0xFF] 12) = .next t) ∧
    (0x00FF : Word).toNat < 0x0100 ∧ 0x01FF < (0x0200 : Word).toNat := ⟨rfl, ⟨_, rfl⟩, by decide, by decide⟩

end Sys2Proof.Tests
end

section
/-! PROOFS. The memory family (spec/20_memory.md): addresses modulo 65536, what a byte or word write leaves in
every cell, and the four statements on the memory port and the fetch unit. -/

namespace Sys2Proof.Machine

/-! ### Addresses -/

/-- R51: an address is the number it was computed as, modulo 65536. -/
theorem addrOf_toNat (n : Int) : (addrOf n).toNat = (n % 65536).toNat :=
  BitVec.toNat_ofInt n

theorem eq_addrOf_iff (a : Word) (n : Int) : a = addrOf n ↔ a.toNat = (n % 65536).toNat := by
  rw [← BitVec.toNat_inj, addrOf_toNat]

theorem addrOf_eq_ofNat (n : Int) : addrOf n = BitVec.ofNat 16 (n % 65536).toNat := by
  rw [← addrOf_toNat, BitVec.ofNat_toNat, BitVec.setWidth_eq]

/-- The two cells of a word are different, also across the wrap. -/
theorem ne_add_one (a : Word) : a ≠ a + 1 := fun h =>
  inc16_toNat_ne a (congrArg BitVec.toNat h.symm)

/-! ### Cells after a write of the memory port -/

theorem cell_memWrite8 (s : State) (a b : Word) (v : Byte) :
    cell (memWrite8 a v s) b = if b = a then v else cell s b :=
  cell_setCell s a b v

@[simp] theorem cell_memWrite8_self (s : State) (a : Word) (v : Byte) : cell (memWrite8 a v s) a = v := by
  simp [cell_memWrite8]

theorem cell_memWrite8_other (s : State) {a b : Word} (v : Byte) (h : b ≠ a) :
    cell (memWrite8 a v s) b = cell s b := by
  simp [cell_memWrite8, h]

/-- R55: a word is written as two bytes, low byte first. -/
theorem memWrite16_eq_memWrite8 (a v : Word) (s : State) :
    memWrite16 a v s = memWrite8 (a + 1) (hiByte v) (memWrite8 a (loByte v) s) := rfl

/-- R55: the low byte of a word is stored at its address. -/
@[simp] theorem cell_memWrite16_low (s : State) (a v : Word) :
    cell (memWrite16 a v s) a = loByte v := by
  rw [memWrite16_eq_memWrite8, cell_memWrite8_other _ _ (ne_add_one a), cell_memWrite8_self]

/-- R55: the high byte of a word is stored one above its address. -/
@[simp] theorem cell_memWrite16_high (s : State) (a v : Word) :
    cell (memWrite16 a v s) (a + 1) = hiByte v := by
  rw [memWrite16_eq_memWrite8, cell_memWrite8_self]

theorem cell_memWrite16_other (s : State) {a b : Word} (v : Word) (hlow : b ≠ a) (hhigh : b ≠ a + 1) :
    cell (memWrite16 a v s) b = cell s b := by
  rw [memWrite16_eq_memWrite8, cell_memWrite8_other _ _ hhigh, cell_memWrite8_other _ _ hlow]

@[simp] theorem memWrite16_cyc (a v : Word) (s : State) : (memWrite16 a v s).cyc = s.cyc - 2 := by
  rw [memWrite16_eq]

/-! ### Reads of the memory port -/

@[simp] theorem memRead16_cyc (a : Word) (s : State) : (memRead16 a s).2.cyc = s.cyc - 2 := by
  rw [memRead16_eq]

/-- R71: reading a word back gives the word that was written. -/
theorem memRead16_memWrite16 (a v : Word) (s : State) : (memRead16 a (memWrite16 a v s)).1 = v := by
  simp only [memRead16_eq, cell_memWrite16_low, cell_memWrite16_high, wordOf_bytes]

theorem fetchByte_eq (s : State) :
    fetchByte s = (cell s s.pc, { s with pc := s.pc + 1, cyc := s.cyc - 1 }) := rfl

/-! ### The statements -/

/-- Settles O8: an address is its integer modulo 65536, and the address above 0xFFFF is 0x0000. -/
theorem addressesWrapAndReadsChangeOnlyTheCounter :
    Obligations.AddressesWrapAndReadsChangeOnlyTheCounter := by
  refine ⟨fun n s => ?_, fun n v s => ?_, fun s => ?_⟩
  · rw [addrOf_eq_ofNat, memRead8_eq]
  · rw [addrOf_eq_ofNat]
  · have hwrap : (0xFFFF : Word) + 1 = 0x0000 := rfl
    rw [memRead16_eq, wordOf_toNat, hwrap]

/-- Settles O9: the named cell is the one at `addrOf n`, and a byte write is a store there and one cycle. -/
theorem byteWriteStoresOneCell : Obligations.ByteWriteStoresOneCell := by
  intro n a v s ha
  obtain rfl : a = addrOf n := (eq_addrOf_iff a n).2 ha
  refine ⟨cell_memWrite8_self s _ v, fun b hb => cell_memWrite8_other s v hb, ?_⟩
  rw [memWrite8_eq]

/-- Settles O10: the two cells of a word are different, so each keeps the half that was written to it. -/
theorem wordWrittenIsTheWordRead : Obligations.WordWrittenIsTheWordRead := by
  intro a v s
  refine ⟨memRead16_memWrite16 a v s, ?_, ?_, fun b => cell_memWrite16_other s v, memWrite16_cyc a v s, ?_⟩
  · rw [cell_memWrite16_low, loByte_toNat]
  · rw [cell_memWrite16_high, hiByte_toNat]
  · rw [memRead16_cyc, memWrite16_cyc, Int.sub_sub]
    rfl

/-- Settles O11, from what each operation does as one equation of states. -/
theorem fetchesAndWordReads : Obligations.FetchesAndWordReads := by
  intro s
  refine ⟨fun a => memRead16_eq a s, fetchByte_eq s, ?_, wordOf_toNat⟩
  rw [fetchWord_eq, takeWord_eq]

end Sys2Proof.Machine
end

section
/-! PROOFS. The encoding family (spec/30_encoding.md): which bytes are unknown opcodes, how many there are, and
what the instruction at one of them does. -/

namespace Sys2Proof.Machine

/-! ### The unknown opcodes -/

/-- R87, with membership in the list of the seven spelled out. -/
theorem descriptor_eq_none_iff_ne (opcode : Byte) : descriptor opcode = none ↔
    (opcode ≠ Config.opcLdaImm ∧ opcode ≠ Config.opcLdaZp ∧ opcode ≠ Config.opcLdaZpx ∧
      opcode ≠ Config.opcLdaAbs ∧ opcode ≠ Config.opcLdaAbx ∧ opcode ≠ Config.opcLdaAby ∧
      opcode ≠ Config.opcJsr) := by
  rw [descriptor_eq_none_iff]
  simp [Config.opcodes]

theorem descriptor_ofNat_ne_none_iff (n : Nat) :
    n < 256 ∧ descriptor (BitVec.ofNat 8 n) ≠ none ↔ n ∈ Config.opcodes.map BitVec.toNat := by
  rw [ne_eq, descriptor_eq_none_iff, not_not, List.mem_map]
  constructor
  · rintro ⟨hn, hmem⟩
    exact ⟨_, hmem, Nat.mod_eq_of_lt hn⟩
  · rintro ⟨opcode, hmem, rfl⟩
    exact ⟨opcode.isLt, by simpa using hmem⟩

/-- R85: the byte values with a descriptor are the seven of the table, each once. -/
theorem knownBytes_perm_opcodes :
    ((List.range 256).filter (fun n => !(descriptor (BitVec.ofNat 8 n) == none))).Perm
      (Config.opcodes.map BitVec.toNat) := by
  refine (List.perm_ext_iff_of_nodup (List.nodup_range.filter _) (by decide)).2 fun n => ?_
  rw [← descriptor_ofNat_ne_none_iff, List.mem_filter, List.mem_range, Bool.not_eq_true', beq_eq_false_iff_ne]

/-- R87: the bytes with a descriptor and those without make up all 256, and the former are seven. -/
theorem length_unknownBytes :
    ((List.range 256).filter (fun n => descriptor (BitVec.ofNat 8 n) == none)).length = 249 := by
  have hsplit := List.length_eq_length_filter_add (l := List.range 256)
    (fun n => descriptor (BitVec.ofNat 8 n) == none)
  rw [knownBytes_perm_opcodes.length_eq, List.length_range] at hsplit
  exact Nat.add_right_cancel hsplit.symm

/-- A cell that holds what reset left in it is no implemented opcode (R36, R87). -/
theorem descriptor_initByte : descriptor Config.initByte = none := rfl

/-! ### The instruction at an unknown opcode -/

/-- R155, R183: the fetch's cycle, the halt and the record; `pc` is back at the opcode. -/
theorem exec_unknown_eq (opcode : Byte) (s : State) : exec (.unknown opcode) s =
    .next { s with cyc := s.cyc - 1, fsm := .haltedWithError, fault := some (.unknownOpcode opcode s.pc) } :=
  rfl

theorem exec_decodeBytes_unknown {opcode : Byte} (h : descriptor opcode = none) (b1 b2 : Byte) (s : State) :
    exec (decodeBytes opcode b1 b2) s =
      .next { s with cyc := s.cyc - 1, fsm := .haltedWithError, fault := some (.unknownOpcode opcode s.pc) } := by
  rw [decodeBytes_unknown h, exec_unknown_eq]

/-! ### The statement -/

/-- Settles O4: a byte with no descriptor decodes to `unknown` whatever follows it, and that instruction's
next state holds the record and the halt. -/
theorem everyOtherByteIsAnUnknownOpcode : Obligations.EveryOtherByteIsAnUnknownOpcode :=
  ⟨descriptor_eq_none_iff_ne, length_unknownBytes, descriptor_initByte,
    fun _ b1 b2 s h => ⟨_, exec_decodeBytes_unknown h b1 b2 s, rfl, rfl⟩⟩

end Sys2Proof.Machine
end

section
/-! PROOFS. The addressing-mode family (spec/40_addressing_modes.md): the modular adders as numbers, the page
crossing, and the cycles an instruction charges. -/

namespace Sys2Proof.Machine

open Sys2Proof.Safety

/-! ### The adders -/

theorem dec16_toNat (a : Word) : (dec16 a).toNat = (a.toNat + 65535) % 65536 := by
  rw [dec16, BitVec.toNat_sub, Nat.add_comm]
  rfl

theorem add8_toNat (a b : Byte) : (add8 a b).toNat = (a.toNat + b.toNat) % 256 :=
  BitVec.toNat_add a b

theorem dec8_toNat (a : Byte) : (dec8 a).toNat = (a.toNat + 255) % 256 := by
  rw [dec8, BitVec.toNat_sub, Nat.add_comm]
  rfl

theorem inc8_toNat (a : Byte) : (inc8 a).toNat = (a.toNat + 1) % 256 :=
  BitVec.toNat_add a 1

/-- R109: the sum is taken in 8 bits before it is an address. -/
theorem zpxAddr_toNat (zp x : Byte) : (zpxAddr zp x).toNat = (zp.toNat + x.toNat) % 256 := by
  rw [zpxAddr, zext16_toNat, add8_toNat]

/-! ### The page crossing -/

theorem toNat_and_ff (base : Word) : (base &&& 0xFF).toNat = base.toNat % 256 := by
  rw [BitVec.toNat_and]
  exact Nat.and_two_pow_sub_one_eq_mod base.toNat 8

/-- R115: the page of the base plays no part. -/
theorem pageCrossed_wordOf (hi lo idx : Byte) :
    pageCrossed (wordOf hi lo) idx = decide (lo.toNat + idx.toNat > 0xFF) := by
  rw [pageCrossed, loByte_wordOf]

/-- A low byte alone does not carry. -/
theorem pageCrossed_zero (base : Word) : pageCrossed base 0x00 = false :=
  decide_eq_false (Nat.not_lt.2 (Nat.le_of_lt_succ (loByte base).isLt))

/-! ### The cycles of the seven modes -/

@[simp] theorem beginHandler_cyc (s : State) : (beginHandler s).cyc = s.cyc - 1 := rfl

@[simp] theorem beginHandler_x (s : State) : (beginHandler s).x = s.x := rfl

@[simp] theorem beginHandler_y (s : State) : (beginHandler s).y = s.y := rfl

@[simp] theorem takeWord_cyc (s : State) : (takeWord s).cyc = s.cyc - 2 := by
  rw [takeWord_eq]

@[simp] theorem memRead8_cyc (a : Word) (s : State) : (memRead8 a s).2.cyc = s.cyc - 1 := rfl

/-! R114: the third column of the mode table. -/

@[simp] theorem resolveImm_cyc (imm8 : Byte) (s : State) : (resolveImm imm8 s).2.cyc = s.cyc - 1 := rfl

@[simp] theorem resolveZp_cyc (zp8 : Byte) (s : State) : (resolveZp zp8 s).2.cyc = s.cyc - 2 := by
  simp [resolveZp, Int.sub_sub]

@[simp] theorem resolveZpx_cyc (zp8 : Byte) (s : State) : (resolveZpx zp8 s).2.cyc = s.cyc - 3 := by
  simp [resolveZpx, Int.sub_sub]

@[simp] theorem resolveAbs_cyc (abs16 : Word) (s : State) : (resolveAbs abs16 s).2.cyc = s.cyc - 3 := by
  simp [resolveAbs, Int.sub_sub]

/-- The part `ABX` and `ABY` share, behind the two operand bytes. -/
theorem resolveIndexed_takeWord_cyc (abs16 : Word) (idx : Byte) (s : State) :
    (resolveIndexed abs16 idx (takeWord s)).2.cyc = s.cyc - (if pageCrossed abs16 idx then 4 else 3) := by
  cases h : pageCrossed abs16 idx <;> simp [resolveIndexed_eq, h, Int.sub_sub]

@[simp] theorem resolveAbx_cyc (abs16 : Word) (s : State) :
    (resolveAbx abs16 s).2.cyc = s.cyc - (if pageCrossed abs16 s.x then 4 else 3) :=
  resolveIndexed_takeWord_cyc abs16 s.x s

@[simp] theorem resolveAby_cyc (abs16 : Word) (s : State) :
    (resolveAby abs16 s).2.cyc = s.cyc - (if pageCrossed abs16 s.y then 4 else 3) :=
  resolveIndexed_takeWord_cyc abs16 s.y s

@[simp] theorem resolveJsrAbs_cyc (abs16 : Word) (s : State) : (resolveJsrAbs abs16 s).2.cyc = s.cyc - 2 :=
  takeWord_cyc s

/-! ### The cycles of the eight instructions -/

@[simp] theorem loadAccumulator_cyc (r : Byte × State) : (loadAccumulator r).cyc = r.2.cyc := rfl

@[simp] theorem jumpToSubroutine_cyc (r : Word × State) : (jumpToSubroutine r).cyc = r.2.cyc - 3 := by
  rw [jumpToSubroutine_eq]

/-! R215: the timing table in numbers, for the two rows the penalty applies to. -/

theorem cost_ldaAbx (base : Word) (s : State) :
    cost (.ldaAbx base) s = if pageCrossed base s.x then 5 else 4 := by
  rw [cost, penalty]
  split <;> rfl

theorem cost_ldaAby (base : Word) (s : State) :
    cost (.ldaAby base) s = if pageCrossed base s.y then 5 else 4 := by
  rw [cost, penalty]
  split <;> rfl

/-- R115: the penalty is that of the two absolute indexed loads. -/
theorem penalty_eq_zero {i : Instr} (hx : ∀ base, i ≠ .ldaAbx base) (hy : ∀ base, i ≠ .ldaAby base)
    (s : State) : penalty i s = 0 := by
  cases i with
  | ldaAbx base => exact absurd rfl (hx base)
  | ldaAby base => exact absurd rfl (hy base)
  | ldaImm _ | ldaZp _ | ldaZpx _ | ldaAbs _ | jsr _ | unknown _ => rfl

theorem unknown_of_not_wellFormed {i : Instr} (h : ¬ i.wellFormed = true) : ∃ opcode, i = .unknown opcode := by
  cases i with
  | unknown opcode => exact ⟨opcode, rfl⟩
  | ldaImm _ | ldaZp _ | ldaZpx _ | ldaAbs _ | ldaAbx _ | ldaAby _ | jsr _ => exact absurd rfl h

/-- R114: a load charges the fetch of its opcode byte and the cycles of its mode. -/
theorem load_charges {r : Byte × State} {s : State} {k : Int} (hmode : r.2.cyc = (beginHandler s).cyc - k) :
    s.cyc - (loadAccumulator r).cyc = 1 + k := by
  rw [loadAccumulator_cyc, hmode, beginHandler_cyc]
  omega

/-- R215: an instruction of the machine completes and charges what the timing table says. -/
theorem exec_charges_cost (i : Instr) (s : State) (hwf : i.wellFormed = true) :
    ∃ t, exec i s = .next t ∧ s.cyc - t.cyc = cost i s := by
  cases i with
  | ldaImm imm8 => exact ⟨_, rfl, load_charges (resolveImm_cyc imm8 _)⟩
  | ldaZp zp8 => exact ⟨_, rfl, load_charges (resolveZp_cyc zp8 _)⟩
  | ldaZpx zp8 => exact ⟨_, rfl, load_charges (resolveZpx_cyc zp8 _)⟩
  | ldaAbs abs16 => exact ⟨_, rfl, load_charges (resolveAbs_cyc abs16 _)⟩
  | ldaAbx abs16 =>
    refine ⟨_, rfl, (load_charges (resolveAbx_cyc abs16 _)).trans ?_⟩
    rw [beginHandler_x, cost_ldaAbx]
    split <;> rfl
  | ldaAby abs16 =>
    refine ⟨_, rfl, (load_charges (resolveAby_cyc abs16 _)).trans ?_⟩
    rw [beginHandler_y, cost_ldaAby]
    split <;> rfl
  | jsr target =>
    have hcost : cost (.jsr target) s = 6 := rfl
    refine ⟨_, rfl, ?_⟩
    rw [jumpToSubroutine_cyc, resolveJsrAbs_cyc, beginHandler_cyc, hcost]
    omega
  | unknown opcode =>
    have hdesc : descriptor opcode = none := (wellFormed_unknown_iff opcode).1 hwf
    refine ⟨_, exec_unknown_eq opcode s, ?_⟩
    simp [cost, baseCost, penalty, opcodeOf, encode, hdesc]

/-- R115: what any other instruction charges depends on no state: it is the table's base cost or, for an `unknown`
term that is no instruction of the machine (log entry 15), the one fetch. -/
theorem exec_charges_same {i : Instr} {s s' t t' : State} (hx : ∀ base, i ≠ .ldaAbx base)
    (hy : ∀ base, i ≠ .ldaAby base) (h : exec i s = .next t) (h' : exec i s' = .next t') :
    s.cyc - t.cyc = s'.cyc - t'.cyc := by
  by_cases hwf : i.wellFormed = true
  · obtain ⟨u, hu, hcost⟩ := exec_charges_cost i s hwf
    obtain ⟨u', hu', hcost'⟩ := exec_charges_cost i s' hwf
    obtain rfl : u = t := Host.Outcome.next.inj (hu.symm.trans h)
    obtain rfl : u' = t' := Host.Outcome.next.inj (hu'.symm.trans h')
    rw [hcost, hcost', cost, cost, penalty_eq_zero hx hy, penalty_eq_zero hx hy]
  · obtain ⟨opcode, rfl⟩ := unknown_of_not_wellFormed hwf
    obtain rfl := Host.Outcome.next.inj ((exec_unknown_eq opcode s).symm.trans h)
    obtain rfl := Host.Outcome.next.inj ((exec_unknown_eq opcode s').symm.trans h')
    simp only [Int.sub_sub_self]

/-! ### The statements -/

/-- Settles O5, adder by adder; the zero-page index add is the 8-bit one, extended. -/
theorem addersWrapByDesign : Obligations.AddersWrapByDesign :=
  ⟨inc16_toNat, dec16_toNat, rfl, add8_toNat, rfl, dec8_toNat, rfl, inc8_toNat, zpxAddr_toNat⟩

/-- Settles O6: the test is on the low byte alone, and the timing table has its penalty in two rows. -/
theorem pageCrossingIsTheLowByteCarry : Obligations.PageCrossingIsTheLowByteCarry := by
  refine ⟨fun base idx => ?_, fun hi => ?_, pageCrossed_zero, fun base s => ?_,
    fun _ _ _ _ _ => exec_charges_same⟩
  · rw [toNat_and_ff]
    exact pageCrossed_iff base idx
  · simp only [pageCrossed_wordOf]
    decide
  · obtain ⟨t, ht, htcost⟩ := exec_charges_cost (.ldaAbx base) s rfl
    obtain ⟨u, hu, hucost⟩ := exec_charges_cost (.ldaAby base) s rfl
    exact ⟨t, u, ht, htcost.trans (cost_ldaAbx base s), hu, hucost.trans (cost_ldaAby base s)⟩

end Sys2Proof.Machine
end

section
/-! PROOFS. The load-accumulator family (spec/41_load_accumulator.md): the flag computer in numbers, what the
handler `LDA` leaves after any mode, and the three loads without an index. -/

namespace Sys2Proof.Machine

open Sys2Proof.Safety

/-! ### The flag computer -/

theorem beq_zero_eq_decide (v : Byte) : (v == 0x00) = decide (v.toNat = 0) :=
  decide_eq_decide.2 BitVec.toNat_inj.symm

/-- R120 in numbers: bit 7 is set exactly from 0x80 up. -/
theorem znFlags_eq (v : Byte) (f : Flags) :
    znFlags v f = { f with z := decide (v.toNat = 0), n := decide (0x80 ≤ v.toNat) } := by
  rw [znFlags, beq_zero_eq_decide, BitVec.msb_eq_decide]

/-- R120: what `Z` and `N` held before plays no part. -/
theorem znFlags_overwrite (v : Byte) (z n : Bool) (f : Flags) :
    znFlags v { f with z := z, n := n } = znFlags v f := rfl

theorem setZN_eq (s : State) : setZN s = { s with flags := znFlags s.a s.flags } := rfl

/-! ### Fetching an instruction -/

/-- The instruction at an opcode byte is decoded from it and the two bytes behind it. -/
theorem fetchInstr_of_opcode {s : State} {opcode : Byte} (h : cell s s.pc = opcode) :
    fetchInstr s = decodeBytes opcode (cell s (s.pc + 1)) (cell s (s.pc + 2)) := by
  rw [fetchInstr, inc16_inc16, h, inc16]

/-- R81: the low byte of the operand comes first. -/
theorem absBytes_wordOf (opcode hi lo : Byte) : absBytes opcode (wordOf hi lo) = [opcode, lo, hi] := by
  rw [absBytes, loByte_wordOf, hiByte_wordOf]

/-! ### Three modes as whole-state equations (R114) -/

theorem zext16_eq_ofNat (v : Byte) : zext16 v = BitVec.ofNat 16 v.toNat :=
  (BitVec.ofNat_toNat 16 v).symm

theorem resolveImm_eq (imm8 : Byte) (s : State) :
    resolveImm imm8 s = (imm8, { s with pc := s.pc + 1, cyc := s.cyc - 1 }) := rfl

theorem resolveZp_eq (zp8 : Byte) (s : State) : resolveZp zp8 s =
    (cell s (BitVec.ofNat 16 zp8.toNat), { s with pc := s.pc + 1, cyc := s.cyc - 2 }) := by
  simp only [resolveZp, memRead8_eq, takeByte_eq, zext16_eq_ofNat, Int.sub_sub]
  rfl

theorem resolveAbs_eq (abs16 : Word) (s : State) :
    resolveAbs abs16 s = (cell s abs16, { s with pc := s.pc + 2, cyc := s.cyc - 3 }) := by
  simp only [resolveAbs, memRead8_eq, takeWord_eq, Int.sub_sub]
  rfl

/-! ### The handler behind a mode -/

/-- R127: where the mode advanced `pc` by `len` and charged `k` cycles behind the opcode byte, and did nothing
else, the load leaves the state of the table: one byte and one cycle more than the mode. -/
theorem loadAccumulator_eq_loaded {r : Byte × State} {s : State} {v : Byte} {len : Word} {k : Int}
    (hmode : r = (v, { beginHandler s with
      pc := (beginHandler s).pc + len, cyc := (beginHandler s).cyc - k })) :
    loadAccumulator r = loaded v (1 + len) (1 + k) s := by
  subst hmode
  simp only [loadAccumulator_eq, beginHandler_eq, loaded, znFlags_eq, BitVec.add_assoc, Int.sub_sub]

/-! ### The statements -/

/-- Settles O15: `SetZN` writes the flags alone, and they are `znFlags` of the accumulator. -/
theorem zeroAndNegativeAreRecomputed : Obligations.ZeroAndNegativeAreRecomputed := by
  intro s
  refine ⟨?_, ?_, fun z n => ?_⟩
  · rw [setZN_eq, znFlags_eq]
  · rw [setZN_flags, znFlags_n, BitVec.msb_eq_getLsbD_last]
  · simp only [setZN_eq, znFlags_overwrite]

/-- Settles O17: mode `IMM` takes one byte and one cycle behind the opcode. -/
theorem loadImmediate : Obligations.LoadImmediate := by
  refine ⟨fun v => rfl, fun s h => ?_, fun v s => ?_⟩
  · rw [fetchInstr_of_opcode h, decodeBytes_ldaImm]
  · exact congrArg Host.Outcome.next (loadAccumulator_eq_loaded (resolveImm_eq v _))

/-- Settles O18: mode `ZP` takes one byte and two cycles behind the opcode. -/
theorem loadZeroPage : Obligations.LoadZeroPage := by
  refine ⟨fun z => rfl, fun s h => ?_, fun z s => ?_⟩
  · rw [fetchInstr_of_opcode h, decodeBytes_ldaZp]
  · exact congrArg Host.Outcome.next (loadAccumulator_eq_loaded (resolveZp_eq z _))

/-- Settles O20: mode `ABS` takes two bytes, the low one first, and three cycles behind the opcode. -/
theorem loadAbsolute : Obligations.LoadAbsolute := by
  refine ⟨absBytes_wordOf Config.opcLdaAbs, fun s h => ?_, fun a s => ?_⟩
  · rw [fetchInstr_of_opcode h, decodeBytes_ldaAbs]
  · exact congrArg Host.Outcome.next (loadAccumulator_eq_loaded (resolveAbs_eq a _))

end Sys2Proof.Machine
end

section
/-! PROOFS. The jump-to-subroutine family (spec/42_jump_to_subroutine.md): the cells of the stack page, one push,
and the two pushes and the jump of `JSR`. -/

namespace Sys2Proof.Machine

open Sys2Proof.Safety

/-! ### The cells of the stack page -/

/-- R24: the page is 0x0100 to 0x01FF, and offsets wrap within it. -/
theorem stackCell_toNat (n : Nat) : (stackCell n).toNat = 256 + n % 256 := by
  have hbase : Config.stackBase.toNat = 256 := rfl
  rw [stackCell, BitVec.toNat_add, BitVec.toNat_ofNat, hbase]
  omega

/-- R24: no cell of the stack lies outside the page. -/
theorem stackCell_in_page (n : Nat) : Config.stackBase.toNat ≤ (stackCell n).toNat ∧
    (stackCell n).toNat ≤ Config.stackBase.toNat + 0xFF := by
  have hbase : Config.stackBase.toNat = 256 := rfl
  rw [stackCell_toNat, hbase]
  omega

theorem stackCell_eq_iff (m n : Nat) : stackCell m = stackCell n ↔ m % 256 = n % 256 := by
  rw [← BitVec.toNat_inj, stackCell_toNat, stackCell_toNat, Nat.add_left_cancel_iff]

/-- The cell a stack pointer names, in numbers. -/
theorem stackAddr_eq_stackCell (sp : Byte) : stackAddr sp = stackCell sp.toNat := by
  rw [← BitVec.toNat_inj, stackAddr_toNat, stackCell_toNat, Nat.mod_eq_of_lt sp.isLt]

theorem stackCell_dec8 (sp : Byte) : stackCell (dec8 sp).toNat = stackCell (sp.toNat + 255) := by
  rw [stackCell_eq_iff, dec8_toNat, Nat.mod_mod]

/-- The cells of two pushes in a row are different, also across the wrap. -/
theorem stackCell_ne_below (n : Nat) : stackCell n ≠ stackCell (n + 255) := by
  rw [ne_eq, stackCell_eq_iff]
  omega

/-- Above offset 0 the cell below in the page is the cell below in memory. -/
theorem stackCell_below_of_pos {n : Nat} (hpos : 1 ≤ n) (hlt : n < 256) :
    Config.stackBase + BitVec.ofNat 16 (n - 1) = stackCell (n + 255) := by
  have hmod : (n + 255) % 256 = n - 1 := by omega
  rw [stackCell, hmod]

theorem stackCell_below_add_one {n : Nat} (hpos : 1 ≤ n) (hlt : n < 256) :
    stackCell (n + 255) + 1 = stackCell n := by
  rw [← BitVec.toNat_inj, BitVec.toNat_add, stackCell_toNat, stackCell_toNat, show (1 : Word).toNat = 1 from rfl]
  omega

/-! ### One push -/

@[simp] theorem push8_sp (b : Byte) (s : State) : (push8 b s).sp = dec8 s.sp := rfl

/-- R140: the pushed byte stands where the stack pointer was. -/
@[simp] theorem cell_push8_self (b : Byte) (s : State) : cell (push8 b s) (stackCell s.sp.toNat) = b := by
  rw [push8, cell_setSp, ← stackAddr_eq_stackCell, cell_memWrite8_self]

theorem cell_push8_other (b : Byte) (s : State) {a : Word} (h : a ≠ stackCell s.sp.toNat) :
    cell (push8 b s) a = cell s a := by
  rw [push8, cell_setSp, stackAddr_eq_stackCell, cell_memWrite8_other _ _ h]

/-! ### Two pushes -/

/-- The high byte of `v` pushed, then its low byte (R141). -/
def pushBytes (v : Word) (s : State) : State := push8 (loByte v) (push8 (hiByte v) s)

theorem cell_pushBytes_low (v : Word) (s : State) :
    cell (pushBytes v s) (stackCell (s.sp.toNat + 255)) = loByte v := by
  rw [← stackCell_dec8]
  exact cell_push8_self (loByte v) (push8 (hiByte v) s)

theorem cell_pushBytes_of_ne_low (v : Word) (s : State) {a : Word} (h : a ≠ stackCell (s.sp.toNat + 255)) :
    cell (pushBytes v s) a = cell (push8 (hiByte v) s) a := by
  rw [← stackCell_dec8] at h
  exact cell_push8_other (loByte v) (push8 (hiByte v) s) h

theorem cell_pushBytes_high (v : Word) (s : State) :
    cell (pushBytes v s) (stackCell s.sp.toNat) = hiByte v := by
  rw [cell_pushBytes_of_ne_low v s (stackCell_ne_below _), cell_push8_self]

theorem cell_pushBytes_other (v : Word) (s : State) {a : Word} (hhigh : a ≠ stackCell s.sp.toNat)
    (hlow : a ≠ stackCell (s.sp.toNat + 255)) : cell (pushBytes v s) a = cell s a := by
  rw [cell_pushBytes_of_ne_low v s hlow, cell_push8_other _ s hhigh]

/-! ### The jump -/

/-- R141: what jump-to-subroutine leaves. The address pushed is that of the instruction's last byte. -/
def jumped (target : Word) (s : State) : State :=
  { s with
    pc := target
    sp := s.sp - 2
    cyc := s.cyc - 6
    fsm := .runningHandler
    mem := (pushBytes (s.pc + 2) s).mem }

theorem takeWord_beginHandler (s : State) :
    takeWord (beginHandler s) = { s with pc := s.pc + 3, cyc := s.cyc - 3, fsm := .runningHandler } := by
  simp only [takeWord_eq, beginHandler_eq, BitVec.add_assoc, Int.sub_sub]
  rfl

theorem exec_jsr_eq (target : Word) (s : State) : exec (.jsr target) s = .next (jumped target s) := by
  have hexec : exec (.jsr target) s = .next (jumpToSubroutine (target, takeWord (beginHandler s))) := rfl
  have hlast : s.pc + 3 - 1 = s.pc + 2 := by bv_omega
  rw [hexec, takeWord_beginHandler, jumpToSubroutine_eq]
  simp only [jumped, pushBytes, push8_eq, hlast, BitVec.sub_sub, Int.sub_sub]
  rfl

theorem cell_jumped (target : Word) (s : State) (a : Word) :
    cell (jumped target s) a = cell (pushBytes (s.pc + 2) s) a :=
  cell_congr rfl a

theorem cell_jumped_high (target : Word) (s : State) :
    cell (jumped target s) (stackCell s.sp.toNat) = hiByte (s.pc + 2) :=
  (cell_jumped target s _).trans (cell_pushBytes_high _ s)

theorem cell_jumped_low (target : Word) (s : State) :
    cell (jumped target s) (stackCell (s.sp.toNat + 255)) = loByte (s.pc + 2) :=
  (cell_jumped target s _).trans (cell_pushBytes_low _ s)

theorem jumped_sp_toNat (target : Word) (s : State) :
    (jumped target s).sp.toNat = (s.sp.toNat + 254) % 256 := by
  have hsp : (jumped target s).sp = s.sp - 2 := rfl
  rw [hsp, BitVec.toNat_sub, Nat.add_comm]
  rfl

/-- R143: the first byte popped is the low one. -/
theorem stackCell_jumped_sp_add_one (target : Word) (s : State) :
    stackCell ((jumped target s).sp.toNat + 1) = stackCell (s.sp.toNat + 255) := by
  rw [stackCell_eq_iff, jumped_sp_toNat, Nat.mod_add_mod]

/-- R143: the second byte popped is the high one. -/
theorem stackCell_jumped_sp_add_two (target : Word) (s : State) :
    stackCell ((jumped target s).sp.toNat + 2) = stackCell s.sp.toNat := by
  rw [stackCell_eq_iff, jumped_sp_toNat, Nat.mod_add_mod, Nat.add_assoc, Nat.add_mod_right]

/-! ### The statements -/

/-- Settles O25: the byte goes to the cell the old `SP` names, and no other cell or field changes. -/
theorem pushStaysInTheStackPage : Obligations.PushStaysInTheStackPage := by
  intro b s
  obtain ⟨hfirst, hlast⟩ := stackCell_in_page s.sp.toNat
  refine ⟨?_, dec8_toNat s.sp, cell_push8_self b s, fun _ => cell_push8_other b s, hfirst, hlast, fun hsp => ?_⟩
  · rw [push8_eq]
  · rw [push8_sp, hsp]
    exact ⟨rfl, rfl⟩

/-- Settles O23: after the operand, `pc + 2` is pushed as two bytes and the jump is made. -/
theorem jumpToSubroutineWholeEffect : Obligations.JumpToSubroutine := by
  refine ⟨absBytes_wordOf Config.opcJsr, fun s h => ?_, fun target s =>
    ⟨_, exec_jsr_eq target s, rfl, cell_jumped_high target s, cell_jumped_low target s, fun a hhigh hlow => ?_⟩⟩
  · rw [fetchInstr_of_opcode h, decodeBytes_jsr]
  · rw [cell_jumped, cell_pushBytes_other _ s hhigh hlow]

/-- Settles O24: the two cells above the new `SP`, wrapping in the page, are those of the pushed bytes. -/
theorem pushedAddressResumesAfterTheJump : Obligations.PushedAddressResumesAfterTheJump := by
  intro target s
  refine ⟨_, exec_jsr_eq target s, jumped_sp_toNat target s, cell_jumped_high target s,
    cell_jumped_low target s, ?_, fun hpos => ?_⟩
  · rw [stackCell_jumped_sp_add_two, stackCell_jumped_sp_add_one, cell_jumped_high, cell_jumped_low,
      wordOf_bytes, BitVec.add_assoc]
    rfl
  · rw [memRead16_eq, stackCell_below_of_pos hpos s.sp.isLt, stackCell_below_add_one hpos s.sp.isLt,
      cell_jumped_high, cell_jumped_low, wordOf_bytes]

end Sys2Proof.Machine
end

section
/-! PROOFS. The execution-engine family (spec/43_execution_engine.md): the loop check after an instruction and
the loop check before the fetch. -/

namespace Sys2Proof.Machine

open Sys2Proof.Safety

/-! ### The loop check after an instruction -/

/-- R158: the counter is positive, so the handler's end leads back to `Fetching`. -/
theorem afterInstr_running_of_pos {t : State} (hfsm : t.fsm = .runningHandler) (hpos : 0 < t.cyc) :
    afterInstr t = setFsm .fetching t := by
  rw [afterInstr_running hfsm, if_pos hpos]

/-- R158: the counter is used up, so the handler's end is the end of the run. -/
theorem afterInstr_running_of_nonpos {t : State} (hfsm : t.fsm = .runningHandler) (hcyc : t.cyc ≤ 0) :
    afterInstr t = haltRun t := by
  rw [afterInstr_running hfsm, if_neg (Int.not_lt.2 hcyc)]

/-- R162: where the instruction of a ready core completes, the step is that instruction and the check. -/
theorem step_ready_of_exec {s t : State} (hready : Ready s) (hexec : exec (fetchInstr s) s = .next t) :
    step s = .next (afterInstr t) := by
  rw [step_ready hready, hexec, finishInstr]

/-! ### The loop check before the fetch -/

/-- R156: a core in a run whose counter is used up ends the run; `fetchInstr` plays no part. -/
theorem step_fetching_of_nonpos {s : State} (hreset : s.wasReset = true) (hfsm : s.fsm = .fetching)
    (hcyc : s.cyc ≤ 0) : step s = .next (haltRun s) := by
  have hturn : turnOf s = .core := by simp [turnOf, hreset, hfsm]
  rw [step, hturn]
  exact if_neg (Int.not_lt.2 hcyc)

/-! ### The statements -/

/-- Settles O35: the check leaves `setFsm .fetching t` or `haltRun t`, by the sign of the counter. -/
theorem loopCheckAfterTheHandler : Obligations.LoopCheckAfterTheHandler := by
  intro s t hready hexec hfsm
  refine ⟨afterInstr t, step_ready_of_exec hready hexec, ?_⟩
  rcases Int.lt_or_le 0 t.cyc with hpos | hcyc
  · rw [afterInstr_running_of_pos hfsm hpos]
    exact ⟨rfl, fun _ => rfl, fun hcyc => absurd hpos (Int.not_lt.2 hcyc)⟩
  · rw [afterInstr_running_of_nonpos hfsm hcyc]
    exact ⟨rfl, fun hpos => absurd hpos (Int.not_lt.2 hcyc), fun _ => rfl⟩

/-- Settles O36: without budget the step is `haltRun`; with budget the core is ready, and every instruction
completes (`exec_cases`). -/
theorem loopCheckBeforeTheFetch : Obligations.LoopCheckBeforeTheFetch := by
  intro s hreset hfsm
  refine ⟨fun hcyc => ⟨haltRun s, step_fetching_of_nonpos hreset hfsm hcyc, rfl⟩, fun hpos => ?_⟩
  obtain ⟨t, hexec, -⟩ := exec_cases (fetchInstr s) s
  exact ⟨t, hexec, step_ready_of_exec ⟨hreset, hfsm, hpos⟩ hexec⟩

end Sys2Proof.Machine
end

section
/-! PROOFS. The reset family (spec/70_reset_and_hazards.md): the step that carries out the host's oldest
command, and what a reset leaves under either policy. -/

namespace Sys2Proof.Machine

open Sys2Proof.Safety

/-! ### The host's oldest command -/

/-- R168: in the host's turn a step takes the oldest command off the queue and carries it out. -/
theorem step_of_command {s : State} {c : HostCommand} {rest : List HostCommand} (hturn : HostsTurn s)
    (hcmd : s.commands = c :: rest) : step s = hostCommand c { s with commands := rest } := by
  rw [step_hostsTurn hturn, hostTurn, hcmd]

/-- R200: the step of the command `reset`. -/
theorem step_of_reset_command {s : State} {rest : List HostCommand} (hturn : HostsTurn s)
    (hcmd : s.commands = .reset :: rest) :
    step s = .next (answer .done (resetCore Config.resetPolicy { s with commands := rest })) := by
  rw [step_of_command hturn hcmd, hostCommand]

/-! ### What a reset leaves, whatever the policy -/

section
variable (p : ResetPolicy) (s : State)

@[simp] theorem resetCore_a : (resetCore p s).a = 0x00 := rfl
@[simp] theorem resetCore_x : (resetCore p s).x = 0x00 := rfl
@[simp] theorem resetCore_y : (resetCore p s).y = 0x00 := rfl
@[simp] theorem resetCore_sp : (resetCore p s).sp = Config.spReset := rfl
@[simp] theorem resetCore_flags :
    (resetCore p s).flags = ⟨false, false, false, false, false, false, false⟩ := rfl
@[simp] theorem resetCore_mem : (resetCore p s).mem = [] := rfl

@[simp] theorem cell_resetCore (a : Word) : cell (resetCore p s) a = 0x00 := by
  rw [cell_congr (t := memInit s) (resetCore_mem p s), cell_memInit, Config.initByte]

end

/-! ### The statement -/

/-- Settles O45: in the host's turn the step is `resetCore`, which reads neither the control state nor
`wasReset`, so the faulted and the power-on state need no case of their own. -/
theorem resetZeroesRegistersFlagsAndMemory : Obligations.ResetZeroesRegistersFlagsAndMemory := by
  intro s rest hturn hcmd
  refine ⟨_, step_of_reset_command hturn hcmd, ?_⟩
  simp only [answer_a, answer_x, answer_y, answer_flags, answer_sp, cell_answer, resetCore_a, resetCore_x,
    resetCore_y, resetCore_flags, resetCore_sp, cell_resetCore, implies_true, and_self]

end Sys2Proof.Machine
end

section
/-! PROOFS. Decoding and encoding (spec/30_encoding.md): the encoder undoes the decoder byte by byte, the decoder
undoes the encoder, and the bytes that stand at `pc` are the instruction fetched there. -/

namespace Sys2Proof.Machine

open Sys2Proof.Safety

/-! ### The encoding of what was decoded -/

theorem mem_descriptorTable_of_descriptor {opcode : Byte} {d : Descriptor} (h : descriptor opcode = some d) :
    (opcode, d) ∈ descriptorTable := by
  obtain ⟨before, after, htable, -⟩ := List.lookup_eq_some_iff.1 h
  rw [htable]
  exact List.mem_append_right before List.mem_cons_self

theorem absBytes_bytes (opcode hi lo : Byte) : absBytes opcode (wordOf hi lo) = opcode :: [lo, hi].take 2 :=
  absBytes_wordOf opcode hi lo

/-- R81: a row of the table is encoded as its opcode byte and the operand bytes its mode takes. -/
theorem encode_instrOf {opcode : Byte} {d : Descriptor} (h : (opcode, d) ∈ descriptorTable) (b1 b2 : Byte) :
    encode (instrOf d.mode b1 b2) = opcode :: [b1, b2].take (operandBytes d.mode) := by
  simp only [descriptorTable, List.mem_cons, Prod.mk.injEq, List.not_mem_nil, or_false] at h
  rcases h with ⟨rfl, rfl⟩ | ⟨rfl, rfl⟩ | ⟨rfl, rfl⟩ | ⟨rfl, rfl⟩ | ⟨rfl, rfl⟩ | ⟨rfl, rfl⟩ | ⟨rfl, rfl⟩
  case inl | inr.inl | inr.inr.inl => rfl
  all_goals exact absBytes_bytes _ b2 b1

/-- R88: the encoding of the instruction at three bytes is as many of them as the opcode byte calls for. -/
theorem encode_decodeBytes (b0 b1 b2 : Byte) :
    encode (decodeBytes b0 b1 b2) = b0 :: [b1, b2].take (operandCount b0) := by
  cases h : descriptor b0 with
  | none => simp only [decodeBytes, operandCount, h, encode, List.take_zero]
  | some d =>
    simp only [decodeBytes, operandCount, h]
    exact encode_instrOf (mem_descriptorTable_of_descriptor h) b1 b2

/-- R87: an `unknown` instruction comes from a byte without a descriptor only. -/
theorem wellFormed_decodeBytes (b0 b1 b2 : Byte) : (decodeBytes b0 b1 b2).wellFormed = true := by
  by_contra hwf
  obtain ⟨opcode, hunknown⟩ := unknown_of_not_wellFormed hwf
  rw [hunknown, wellFormed_unknown_iff] at hwf
  exact hwf (decodeBytes_eq_unknown hunknown).2

theorem length_encode (i : Instr) : (encode i).length = i.length := by
  cases i <;> rfl

theorem operandCount_le_two (opcode : Byte) : operandCount opcode ≤ 2 := by
  unfold operandCount
  split
  · next d _ => cases d.mode <;> decide
  · exact Nat.zero_le 2

/-- The operand bytes of an opcode are at most the first two bytes behind it. -/
theorem take_two_getD {n : Nat} {bs : List Byte} (hn : n ≤ 2) (hlen : n ≤ bs.length) :
    [bs.getD 0 0, bs.getD 1 0].take n = bs.take n := by
  refine List.ext_getElem (by simp; omega) fun k hk _ => ?_
  simp only [List.length_take, List.length_cons, List.length_nil] at hk
  obtain rfl | rfl : k = 0 ∨ k = 1 := by omega
  · simp [List.getD_eq_getElem?_getD, show 0 < bs.length by omega]
  · simp [List.getD_eq_getElem?_getD, show 1 < bs.length by omega]

/-- What the decoder answers: there is an opcode byte, its operand bytes follow, and they are used up. -/
theorem decode_ok_iff {bs rest : List Byte} {i : Instr} : decode bs = .ok (i, rest) ↔
    ∃ b0 tail, bs = b0 :: tail ∧ operandCount b0 ≤ tail.length ∧
      i = decodeBytes b0 (tail.getD 0 0) (tail.getD 1 0) ∧ rest = tail.drop (operandCount b0) := by
  cases bs with
  | nil => simp [decode]
  | cons b0 tail =>
    by_cases hlen : tail.length < operandCount b0
    · simp [decode, hlen]
    · simp [decode, hlen, not_lt.1 hlen, eq_comm]

/-- R88: three bytes are enough for every instruction. -/
theorem decode_three (b0 b1 b2 : Byte) :
    decode [b0, b1, b2] = .ok (decodeBytes b0 b1 b2, [b1, b2].drop (operandCount b0)) :=
  decode_ok_iff.2 ⟨b0, [b1, b2], rfl, operandCount_le_two b0, rfl, rfl⟩

/-! ### The statements on lists of bytes -/

/-- Settles O1, instruction by instruction: the family `RoundTrip` has one lemma for each. -/
theorem decodeOfEncodeIsTheInstruction : Obligations.DecodeOfEncodeIsTheInstruction := by
  intro i rest hwf
  cases i with
  | ldaImm imm8 => exact Laws.RoundTrip.ldaImm imm8 hwf rest
  | ldaZp zp8 => exact Laws.RoundTrip.ldaZp zp8 hwf rest
  | ldaZpx zp8 => exact Laws.RoundTrip.ldaZpx zp8 hwf rest
  | ldaAbs abs16 => exact Laws.RoundTrip.ldaAbs abs16 hwf rest
  | ldaAbx abs16 => exact Laws.RoundTrip.ldaAbx abs16 hwf rest
  | ldaAby abs16 => exact Laws.RoundTrip.ldaAby abs16 hwf rest
  | jsr target => exact Laws.RoundTrip.jsr target hwf rest
  | unknown opcode => exact Laws.RoundTrip.unknown opcode hwf rest

/-- Settles O2: the encoding is the opcode byte and the operand bytes it calls for, which are the front of the
list; the rest is what stands behind them. -/
theorem decodedBytesAreTheEncoding : Obligations.DecodedBytesAreTheEncoding := by
  intro bs rest i h
  obtain ⟨b0, tail, rfl, hlen, rfl, rfl⟩ := decode_ok_iff.1 h
  refine ⟨wellFormed_decodeBytes _ _ _, ?_, length_encode _⟩
  rw [encode_decodeBytes, take_two_getD (operandCount_le_two b0) hlen, List.cons_append, List.take_append_drop]

/-- Settles O3, by running the decoder on the eight words. -/
theorem writtenOutWordsDecode : Obligations.WrittenOutWordsDecode :=
  ⟨rfl, rfl, rfl, rfl, rfl, rfl, rfl, rfl⟩

/-! ### The bytes at `pc` -/

/-- The three bytes the core looks at for an instruction, in address order, wrapping (R27). -/
def bytesAtPc (s : State) : List Byte := [cell s s.pc, cell s (s.pc + 1), cell s (s.pc + 2)]

/-- The fetch decodes the bytes at `pc`, and never fails. -/
theorem decode_bytesAtPc (s : State) : ∃ rest, decode (bytesAtPc s) = .ok (fetchInstr s, rest) := by
  rw [fetchInstr_of_opcode rfl]
  exact ⟨_, decode_three _ _ _⟩

theorem fetchInstr_of_decode {s : State} {i : Instr} {rest : List Byte}
    (h : decode (bytesAtPc s) = .ok (i, rest)) : fetchInstr s = i := by
  obtain ⟨rest', h'⟩ := decode_bytesAtPc s
  rw [h'] at h
  exact congrArg Prod.fst (Except.ok.inj h)

theorem getElem_bytesAtPc (s : State) {k : Nat} (hk : k < (bytesAtPc s).length) :
    (bytesAtPc s)[k] = cell s (s.pc + BitVec.ofNat 16 k) := by
  obtain rfl | rfl | rfl : k = 0 ∨ k = 1 ∨ k = 2 := by
    simp only [bytesAtPc, List.length_cons, List.length_nil] at hk
    omega
  · exact congrArg (cell s) (BitVec.add_zero s.pc).symm
  · rfl
  · rfl

theorem length_le_three (i : Instr) : i.length ≤ 3 := by
  cases i <;> simp [Instr.length]

/-- Where an encoding stands in memory from `pc` on, it is the front of the bytes looked at. -/
theorem take_bytesAtPc {s : State} {i : Instr}
    (h : ∀ k, k < i.length → cell s (s.pc + BitVec.ofNat 16 k) = (encode i).getD k 0) :
    (bytesAtPc s).take i.length = encode i := by
  have hlen : ((bytesAtPc s).take i.length).length = (encode i).length := by
    rw [List.length_take, length_encode]
    exact Nat.min_eq_left (length_le_three i)
  refine List.ext_getElem hlen fun k hk hk' => ?_
  rw [List.getElem_take, getElem_bytesAtPc, h k (length_encode i ▸ hk'), List.getD_eq_getElem _ _ hk']

/-- Settles O12: the bytes at `pc` are the encoding with some bytes behind it, and decoding gives the
instruction back whatever those are (`decodeOfEncodeIsTheInstruction`). -/
theorem fetchSeesTheBytesInMemory : Obligations.FetchSeesTheBytesInMemory := by
  intro i s hwf hbytes
  apply fetchInstr_of_decode (rest := (bytesAtPc s).drop i.length)
  rw [← List.take_append_drop i.length (bytesAtPc s), take_bytesAtPc hbytes, List.drop_left' (length_encode i)]
  exact decodeOfEncodeIsTheInstruction i _ hwf

/-! ### A table word placed at `pc` -/

theorem fetchInstr_eq_of_decodeTableWord {s : State} {nbits w : Nat} {i : Instr}
    (hbytes : bytesAtPc s = [tableByte nbits w 0, tableByte nbits w 1, tableByte nbits w 2])
    (h : decodeTableWord nbits w = some i) : fetchInstr s = i := by
  obtain ⟨rest, hfetch⟩ := decode_bytesAtPc s
  rw [decodeTableWord, ← hbytes, hfetch] at h
  exact Option.some.inj h

section
variable (s : State) (nbits w : Nat)

theorem cell_withFetchWord (a : Word) : cell (s.withFetchWord nbits w) a =
    if a = s.pc + 2 then tableByte nbits w 2
    else if a = s.pc + 1 then tableByte nbits w 1
    else if a = s.pc then tableByte nbits w 0 else cell s a := by
  have hcell : cell (s.withFetchWord nbits w) a = cell (placeTableWord nbits w s) a := cell_congr rfl a
  rw [hcell, placeTableWord, cell_setCell, cell_setCell, cell_setCell, inc16_inc16, inc16]

theorem bytesAtPc_withFetchWord : bytesAtPc (s.withFetchWord nbits w) =
    [tableByte nbits w 0, tableByte nbits w 1, tableByte nbits w 2] := by
  have hpc : (s.withFetchWord nbits w).pc = s.pc := rfl
  have h1 : s.pc ≠ s.pc + 1 := ne_add_one s.pc
  have h2 : s.pc ≠ s.pc + 2 := by bv_omega
  have h3 : s.pc + 1 ≠ s.pc + 2 := by bv_omega
  simp only [bytesAtPc, hpc, cell_withFetchWord, h1, h2, h3, if_true, if_false]

theorem ready_withFetchWord : Ready (s.withFetchWord nbits w) := by
  refine ⟨rfl, rfl, ?_⟩
  simp only [State.withFetchWord, readyToFetch]
  split <;> omega

end

/-- Settles O13: the three cells hold the three bytes of the word, and the fetch decodes those. -/
theorem placedTableWordIsFetchedNext : Obligations.PlacedTableWordIsFetchedNext := by
  intro s nbits w i h
  refine ⟨fetchInstr_eq_of_decodeTableWord (bytesAtPc_withFetchWord s nbits w) h,
    ready_withFetchWord s nbits w, rfl, fun a h0 h1 h2 => ?_⟩
  rw [cell_withFetchWord, if_neg h2, if_neg h1, if_neg h0]

end Sys2Proof.Machine
end

section
/-! PROOFS. The indexed modes and the rules over all instructions: the indexed add in numbers, the seven modes as
equations of states, the three indexed loads, and from one lemma on what `exec` can answer the frames, the
flags and registers that are inputs of no instruction, and the cycles. -/

namespace Sys2Proof.Machine

open Sys2Proof.Safety

/-! ### The indexed add -/

/-- Settles O7: a carry out of the low byte is what the high byte of the sum gains. -/
theorem indexedAddCarriesIntoTheHighByte : Obligations.IndexedAddCarriesIntoTheHighByte := by
  intro base idx
  refine ⟨addIdx_toNat base idx, pageCrossed_iff base idx, (pageCrossed_iff base idx).trans ?_⟩
  have hbase := base.isLt
  have hidx := idx.isLt
  rw [ne_eq, ← BitVec.toNat_inj, hiByte_toNat, hiByte_toNat, addIdx_toNat]
  omega

/-! ### The indexed modes as whole-state equations (R114) -/

theorem zpxAddr_eq_ofNat (zp x : Byte) : zpxAddr zp x = BitVec.ofNat 16 ((zp.toNat + x.toNat) % 256) := by
  rw [← zpxAddr_toNat, BitVec.ofNat_toNat, BitVec.setWidth_eq]

theorem add_zext16_eq_ofNat (base : Word) (idx : Byte) :
    base + zext16 idx = BitVec.ofNat 16 ((base.toNat + idx.toNat) % 65536) := by
  rw [← addIdx_toNat, BitVec.ofNat_toNat, BitVec.setWidth_eq, addIdx]

theorem resolveZpx_eq (zp8 : Byte) (s : State) : resolveZpx zp8 s =
    (cell s (BitVec.ofNat 16 ((zp8.toNat + s.x.toNat) % 256)),
      { s with pc := s.pc + 1, cyc := s.cyc - 3 }) := by
  simp only [resolveZpx, memRead8_eq, tick, takeByte_eq, zpxAddr_eq_ofNat, Int.sub_sub]
  rfl

/-- What `ABX` and `ABY` share, with the two operand bytes before it: 3 cycles, or 4 with a page crossing. -/
theorem resolveIndexed_takeWord_eq (abs16 : Word) (idx : Byte) (s : State) :
    resolveIndexed abs16 idx (takeWord s) =
      (cell s (BitVec.ofNat 16 ((abs16.toNat + idx.toNat) % 65536)),
        { s with pc := s.pc + 2
                 cyc := s.cyc - (if abs16.toNat % 256 + idx.toNat > 0xFF then 4 else 3) }) := by
  simp only [resolveIndexed_eq, takeWord_eq, add_zext16_eq_ofNat, pageCrossed_iff, Int.sub_sub]
  split <;> rfl

theorem resolveAbx_eq (abs16 : Word) (s : State) : resolveAbx abs16 s =
    (cell s (BitVec.ofNat 16 ((abs16.toNat + s.x.toNat) % 65536)),
      { s with pc := s.pc + 2
               cyc := s.cyc - (if abs16.toNat % 256 + s.x.toNat > 0xFF then 4 else 3) }) :=
  resolveIndexed_takeWord_eq abs16 s.x s

theorem resolveAby_eq (abs16 : Word) (s : State) : resolveAby abs16 s =
    (cell s (BitVec.ofNat 16 ((abs16.toNat + s.y.toNat) % 65536)),
      { s with pc := s.pc + 2
               cyc := s.cyc - (if abs16.toNat % 256 + s.y.toNat > 0xFF then 4 else 3) }) :=
  resolveIndexed_takeWord_eq abs16 s.y s

theorem resolveJsrAbs_eq (abs16 : Word) (s : State) :
    resolveJsrAbs abs16 s = (abs16, { s with pc := s.pc + 2, cyc := s.cyc - 2 }) := by
  rw [resolveJsrAbs, takeWord_eq]

/-- Settles O14, mode by mode. -/
theorem resolverModes : Obligations.ResolverModes := fun s b w =>
  ⟨resolveImm_eq b s, resolveZp_eq b s, resolveZpx_eq b s, resolveAbs_eq w s, resolveAbx_eq w s,
    resolveAby_eq w s, resolveJsrAbs_eq w s⟩

/-! ### The indexed loads -/

/-- The opcode's cycle before the 3 or 4 of an absolute indexed mode. -/
theorem one_add_indexed_cycles (p : Prop) [Decidable p] :
    (1 : Int) + (if p then 4 else 3) = if p then 5 else 4 := by
  split <;> rfl

/-- Settles O19: mode `ZPX` takes one byte and three cycles behind the opcode. -/
theorem loadZeroPageIndexedByX : Obligations.LoadZeroPageIndexedByX := by
  refine ⟨fun z => rfl, fun s h => ?_, fun z s => ?_⟩
  · rw [fetchInstr_of_opcode h, decodeBytes_ldaZpx]
  · exact congrArg Host.Outcome.next (loadAccumulator_eq_loaded (resolveZpx_eq z _))

/-- Settles O21: mode `ABX` takes two bytes and three or four cycles behind the opcode. -/
theorem loadAbsoluteIndexedByX : Obligations.LoadAbsoluteIndexedByX := by
  refine ⟨absBytes_wordOf Config.opcLdaAbx, fun s h => ?_, fun a s => ?_⟩
  · rw [fetchInstr_of_opcode h, decodeBytes_ldaAbx]
  · rw [← one_add_indexed_cycles]
    exact congrArg Host.Outcome.next (loadAccumulator_eq_loaded (resolveAbx_eq a _))

/-- Settles O22: mode `ABY` takes two bytes and three or four cycles behind the opcode. -/
theorem loadAbsoluteIndexedByY : Obligations.LoadAbsoluteIndexedByY := by
  refine ⟨absBytes_wordOf Config.opcLdaAby, fun s h => ?_, fun a s => ?_⟩
  · rw [fetchInstr_of_opcode h, decodeBytes_ldaAby]
  · rw [← one_add_indexed_cycles]
    exact congrArg Host.Outcome.next (loadAccumulator_eq_loaded (resolveAby_eq a _))

/-! ### What an instruction can answer -/

/-- Settles O26: the fetch of the byte, then the exception (`exec_unknown_eq`). -/
theorem unknownOpcodeTakesTheException : Obligations.UnknownOpcodeTakesTheException :=
  exec_unknown_eq

/-- The value a load takes to the accumulator (R121 to R126); of no meaning for the other two. -/
def loadValue : Instr → State → Byte
  | .ldaImm v, _ => v
  | .ldaZp z, s => cell s (BitVec.ofNat 16 z.toNat)
  | .ldaZpx z, s => cell s (BitVec.ofNat 16 ((z.toNat + s.x.toNat) % 256))
  | .ldaAbs a, s => cell s a
  | .ldaAbx a, s => cell s (BitVec.ofNat 16 ((a.toNat + s.x.toNat) % 65536))
  | .ldaAby a, s => cell s (BitVec.ofNat 16 ((a.toNat + s.y.toNat) % 65536))
  | .jsr _, _ => 0
  | .unknown _, _ => 0

/-- The cycles of an absolute indexed load, by the carry in numbers. -/
theorem indexed_cycles_eq (base : Word) (idx : Byte) :
    (if pageCrossed base idx then (5 : Int) else 4) =
      if base.toNat % 256 + idx.toNat > 0xFF then 5 else 4 := by
  simp only [pageCrossed_iff]

/-- R128: the six loads are one, but for the value, the length and the cycles of the table. -/
theorem exec_load_eq {i : Instr} (h : isLoad i = true) (s : State) :
    exec i s = .next (loaded (loadValue i s) (BitVec.ofNat 16 i.length) (cost i s) s) := by
  cases i with
  | ldaImm v => exact loadImmediate.2.2 v s
  | ldaZp z => exact loadZeroPage.2.2 z s
  | ldaZpx z => exact loadZeroPageIndexedByX.2.2 z s
  | ldaAbs a => exact loadAbsolute.2.2 a s
  | ldaAbx a =>
    rw [cost_ldaAbx, indexed_cycles_eq]
    exact loadAbsoluteIndexedByX.2.2 a s
  | ldaAby a =>
    rw [cost_ldaAby, indexed_cycles_eq]
    exact loadAbsoluteIndexedByY.2.2 a s
  | jsr _ => cases h
  | unknown _ => cases h

/-- The state a load leaves, where the load is known to have answered it. -/
theorem eq_loaded_of_exec {i : Instr} {s t : State} (hload : isLoad i = true) (h : exec i s = .next t) :
    t = loaded (loadValue i s) (BitVec.ofNat 16 i.length) (cost i s) s :=
  Host.Outcome.next.inj (h.symm.trans (exec_load_eq hload s))

/-- The state an unknown opcode leaves (R183). -/
def faulted (opcode : Byte) (s : State) : State :=
  { s with cyc := s.cyc - 1, fsm := .haltedWithError, fault := some (.unknownOpcode opcode s.pc) }

/-- An instruction is a load, the jump, or an unknown opcode. -/
theorem instr_cases (i : Instr) : isLoad i = true ∨ (∃ target, i = .jsr target) ∨ ∃ opcode, i = .unknown opcode := by
  cases i with
  | jsr target => exact .inr (.inl ⟨target, rfl⟩)
  | unknown opcode => exact .inr (.inr ⟨opcode, rfl⟩)
  | ldaImm _ | ldaZp _ | ldaZpx _ | ldaAbs _ | ldaAbx _ | ldaAby _ => exact .inl rfl

/-- Everything an instruction can answer, as one of three states. -/
theorem exec_next_cases {i : Instr} {s t : State} (h : exec i s = .next t) :
    (isLoad i = true ∧ t = loaded (loadValue i s) (BitVec.ofNat 16 i.length) (cost i s) s) ∨
    (∃ target, i = .jsr target ∧ t = jumped target s) ∨
    (∃ opcode, i = .unknown opcode ∧ t = faulted opcode s) := by
  rcases instr_cases i with hload | ⟨target, rfl⟩ | ⟨opcode, rfl⟩
  · exact .inl ⟨hload, eq_loaded_of_exec hload h⟩
  · exact .inr (.inl ⟨target, rfl, Host.Outcome.next.inj (h.symm.trans (exec_jsr_eq target s))⟩)
  · exact .inr (.inr ⟨opcode, rfl, Host.Outcome.next.inj (h.symm.trans (exec_unknown_eq opcode s))⟩)

/-! ### Frames -/

theorem cell_loaded (v : Byte) (len : Word) (k : Int) (s : State) (a : Word) :
    cell (loaded v len k s) a = cell s a :=
  cell_congr rfl a

theorem cell_faulted (opcode : Byte) (s : State) (a : Word) : cell (faulted opcode s) a = cell s a :=
  cell_congr rfl a

/-- R141: the two cells the pushes name are all the memory the jump writes. -/
theorem cell_jumped_other (target : Word) (s : State) {a : Word} (hhigh : a ≠ stackCell s.sp.toNat)
    (hlow : a ≠ stackCell (s.sp.toNat + 255)) : cell (jumped target s) a = cell s a :=
  (cell_jumped target s a).trans (cell_pushBytes_other _ s hhigh hlow)

/-- Settles O16: a byte that is 0 is below 0x80. -/
theorem loadsNeverLeaveZeroAndNegativeBothSet : Obligations.LoadsNeverLeaveZeroAndNegativeBothSet := by
  intro i s t hload h
  rw [eq_loaded_of_exec hload h]
  simp only [loaded, decide_eq_true_eq]
  omega

/-- Settles O27: the state of the table keeps every field named. -/
theorem loadsFrame : Obligations.LoadsFrame := by
  intro i s t hload h
  rw [eq_loaded_of_exec hload h]
  exact ⟨rfl, rfl, rfl, rfl, rfl, rfl, rfl, rfl, rfl, rfl, rfl, rfl, cell_loaded _ _ _ s⟩

/-- Settles O28: the addresses the pushes compute are the two cells of the stack page that `jumped` writes. -/
theorem jumpToSubroutineFrame : Obligations.JumpToSubroutineFrame := by
  intro target s t h
  obtain rfl := Host.Outcome.next.inj (h.symm.trans (exec_jsr_eq target s))
  refine ⟨rfl, rfl, rfl, rfl, rfl, rfl, rfl, rfl, ?_⟩
  rintro _ _ rfl rfl a hhigh hlow
  rw [stackAddr_eq_stackCell] at hhigh
  rw [stackAddr_eq_stackCell, stackCell_dec8] at hlow
  exact cell_jumped_other target s hhigh hlow

/-- Settles O29, from the state an unknown opcode commits. -/
theorem unknownOpcodeFrame : Obligations.UnknownOpcodeFrame := by
  intro opcode s t h
  obtain rfl := Host.Outcome.next.inj (h.symm.trans (exec_unknown_eq opcode s))
  exact ⟨rfl, rfl, rfl, rfl, rfl, rfl, rfl, rfl, rfl, cell_faulted opcode s⟩

/-- Settles O30, for each of the three states an instruction can answer. -/
theorem onlyLoadsWriteFlagsAndOnlyJumpsWriteTheStackPointer :
    Obligations.OnlyLoadsWriteFlagsAndOnlyJumpsWriteTheStackPointer := by
  intro i s t h
  rcases exec_next_cases h with ⟨hload, rfl⟩ | ⟨target, rfl, rfl⟩ | ⟨opcode, rfl, rfl⟩
  · exact ⟨rfl, rfl, rfl, fun hnot => absurd (hload.symm.trans hnot) (by decide),
      fun _ => ⟨rfl, cell_loaded _ _ _ s⟩⟩
  · exact ⟨rfl, rfl, rfl, fun _ => ⟨rfl, rfl⟩, fun hnot => absurd rfl (hnot target)⟩
  · exact ⟨rfl, rfl, rfl, fun _ => ⟨rfl, rfl⟩, fun _ => ⟨rfl, cell_faulted opcode s⟩⟩

/-! ### What is no input of an instruction -/

section
variable (i : Instr) (s : State)

theorem loadValue_flags (g : Flags) : loadValue i { s with flags := g } = loadValue i s := by
  cases i <;> rfl

theorem cost_flags (g : Flags) : cost i { s with flags := g } = cost i s := by
  cases i <;> rfl

theorem loadValue_commands (q : List HostCommand) : loadValue i { s with commands := q } = loadValue i s := by
  cases i <;> rfl

theorem cost_commands (q : List HostCommand) : cost i { s with commands := q } = cost i s := by
  cases i <;> rfl

variable {i} (v : Byte)

theorem loadValue_x (hzpx : ∀ z, i ≠ .ldaZpx z) (habx : ∀ a, i ≠ .ldaAbx a) :
    loadValue i { s with x := v } = loadValue i s := by
  cases i with
  | ldaZpx z => exact absurd rfl (hzpx z)
  | ldaAbx a => exact absurd rfl (habx a)
  | ldaImm _ | ldaZp _ | ldaAbs _ | ldaAby _ | jsr _ | unknown _ => rfl

theorem cost_x (habx : ∀ a, i ≠ .ldaAbx a) : cost i { s with x := v } = cost i s := by
  cases i with
  | ldaAbx a => exact absurd rfl (habx a)
  | ldaImm _ | ldaZp _ | ldaZpx _ | ldaAbs _ | ldaAby _ | jsr _ | unknown _ => rfl

theorem loadValue_y (haby : ∀ a, i ≠ .ldaAby a) : loadValue i { s with y := v } = loadValue i s := by
  cases i with
  | ldaAby a => exact absurd rfl (haby a)
  | ldaImm _ | ldaZp _ | ldaZpx _ | ldaAbs _ | ldaAbx _ | jsr _ | unknown _ => rfl

theorem cost_y (haby : ∀ a, i ≠ .ldaAby a) : cost i { s with y := v } = cost i s := by
  cases i with
  | ldaAby a => exact absurd rfl (haby a)
  | ldaImm _ | ldaZp _ | ldaZpx _ | ldaAbs _ | ldaAbx _ | jsr _ | unknown _ => rfl

end

/-- Settles O31: neither the value loaded nor the cycles depend on a flag, and the jump and the unknown opcode
carry the flags through. -/
theorem noInstructionReadsAFlag : Obligations.NoInstructionReadsAFlag := by
  intro i s t g h
  rcases exec_next_cases h with ⟨hload, rfl⟩ | ⟨target, rfl, rfl⟩ | ⟨opcode, rfl, rfl⟩
  · rw [exec_load_eq hload, loadValue_flags, cost_flags, if_pos hload, if_pos hload]
    rfl
  · rw [exec_jsr_eq]
    rfl
  · rw [exec_unknown_eq]
    rfl

/-- Settles O32: `X` is in the value loaded of two modes only and in the cycles of one of them, `Y` in both of
the one mode it indexes. -/
theorem indexRegistersAreReadOnlyByTheirModes : Obligations.IndexRegistersAreReadOnlyByTheirModes := by
  intro i s t v h
  rcases exec_next_cases h with ⟨hload, rfl⟩ | ⟨target, rfl, rfl⟩ | ⟨opcode, rfl, rfl⟩
  · refine ⟨fun hzpx habx => ?_, fun haby => ?_⟩
    · rw [exec_load_eq hload, loadValue_x s v hzpx habx, cost_x s v habx]
      rfl
    · rw [exec_load_eq hload, loadValue_y s v haby, cost_y s v haby]
      rfl
  · exact ⟨fun _ _ => exec_jsr_eq target _, fun _ => exec_jsr_eq target _⟩
  · exact ⟨fun _ _ => exec_unknown_eq opcode _, fun _ => exec_unknown_eq opcode _⟩

/-- No instruction looks at the host's queue. -/
theorem exec_commands {i : Instr} {s t : State} (q : List HostCommand) (h : exec i s = .next t) :
    exec i { s with commands := q } = .next { t with commands := q } := by
  rcases exec_next_cases h with ⟨hload, rfl⟩ | ⟨target, rfl, rfl⟩ | ⟨opcode, rfl, rfl⟩
  · rw [exec_load_eq hload, loadValue_commands, cost_commands]
    rfl
  · exact exec_jsr_eq target _
  · exact exec_unknown_eq opcode _

/-! ### Cycles -/

theorem cost_unknown {opcode : Byte} (h : descriptor opcode = none) (s : State) : cost (.unknown opcode) s = 1 := by
  simp [cost, baseCost, penalty, opcodeOf, encode, h]

/-- R215: the bounds of the timing table for the seven instructions. -/
theorem cost_bounds {i : Instr} (h : ∀ opcode, i ≠ .unknown opcode) (s : State) : 2 ≤ cost i s ∧ cost i s ≤ 6 := by
  cases i with
  | ldaAbx a =>
    rw [cost_ldaAbx]
    split <;> decide
  | ldaAby a =>
    rw [cost_ldaAby]
    split <;> decide
  | unknown opcode => exact absurd rfl (h opcode)
  | ldaImm _ => exact (by decide : (2 : Int) ≤ 2 ∧ (2 : Int) ≤ 6)
  | ldaZp _ => exact (by decide : (2 : Int) ≤ 3 ∧ (3 : Int) ≤ 6)
  | ldaZpx _ | ldaAbs _ => exact (by decide : (2 : Int) ≤ 4 ∧ (4 : Int) ≤ 6)
  | jsr _ => exact (by decide : (2 : Int) ≤ 6 ∧ (6 : Int) ≤ 6)

/-- Settles O33: what is charged is the cost (`exec_charges_cost`), and the table's rows are within the bounds. -/
theorem cyclesChargedAreTheTimingTable : Obligations.CyclesChargedAreTheTimingTable := by
  intro i s hwf
  obtain ⟨t, hexec, hcost⟩ := exec_charges_cost i s hwf
  refine ⟨t, hexec, by omega, ?_, fun hknown => cost_bounds hknown s⟩
  rintro ⟨opcode, rfl⟩
  exact cost_unknown ((wellFormed_unknown_iff opcode).1 hwf) s

end Sys2Proof.Machine
end

section
/-! PROOFS. The host port and reset (spec/43_execution_engine.md, spec/70_reset_and_hazards.md): whose turn it is,
the host's reads and writes, what `execute` answers in each control state, and the state after reset. -/

namespace Sys2Proof.Machine

open Sys2Proof.Safety

/-! ### Whose turn it is -/

theorem hostsTurn_of_idle_or_halted {s : State} (h : s.fsm = .idle ∨ s.fsm = .halted) : HostsTurn s := by
  rcases h with h | h <;> simp [HostsTurn, turnOf, h]

theorem hostsTurn_of_haltedWithError {s : State} (h : s.fsm = .haltedWithError) : HostsTurn s := by
  simp [HostsTurn, turnOf, h]

/-- R38: before the first reset the control state plays no part. -/
theorem hostsTurn_of_powerOn {s : State} (h : s.wasReset = false) : HostsTurn s := by
  simp [HostsTurn, turnOf, h]

/-- R159: without a command the state is stable. -/
theorem step_of_no_command {s : State} (hturn : HostsTurn s) (hcmd : s.commands = []) : step s = .next s := by
  rw [step_hostsTurn hturn, hostTurn, hcmd]

/-! ### The command `execute` -/

theorem hostExecute_powerOn {s : State} (b : Budget) (h : s.wasReset = false) :
    hostExecute b s = .refused .executeBeforeReset := by
  simp [hostExecute, h]

theorem hostExecute_haltedWithError {s : State} (b : Budget) (hreset : s.wasReset = true)
    (hfsm : s.fsm = .haltedWithError) : hostExecute b s = .next (answer (reportOf s) s) := by
  simp [hostExecute, hreset, hfsm]

theorem hostExecute_idle_or_halted {s : State} (b : Budget) (hreset : s.wasReset = true)
    (hfsm : s.fsm = .idle ∨ s.fsm = .halted) : hostExecute b s = .next (startRun b s) := by
  rcases hfsm with h | h <;> simp [hostExecute, hreset, h]

/-- Every host command is answered, but for `execute` before the first reset. -/
theorem hostCommand_answers (c : HostCommand) (s : State) :
    (∃ t, hostCommand c s = .next t) ∨
    (hostCommand c s = .refused .executeBeforeReset ∧ s.wasReset = false ∧ ∃ b, c = .execute b) := by
  cases c with
  | execute b =>
    cases hreset : s.wasReset with
    | false => exact .inr ⟨hostExecute_powerOn b hreset, rfl, b, rfl⟩
    | true =>
      refine .inl ?_
      simp only [hostCommand, hostExecute, hreset, if_true]
      split <;> exact ⟨_, rfl⟩
  | reset | pokeMem _ _ | pokeMemWord _ _ | peekMem _ | peekMemWord _ | pokeReg _ _ | pokePc _ | pokeFlag _ _
  | peekState => exact .inl ⟨_, rfl⟩

/-- R151, R152: from `Idle` and `Halted` the step of `execute` starts a run. -/
theorem step_of_execute {s : State} {b : Budget} {rest : List HostCommand} (hreset : s.wasReset = true)
    (hfsm : s.fsm = .idle ∨ s.fsm = .halted) (hcmd : s.commands = .execute b :: rest) :
    step s = .next (startRun b { s with commands := rest }) := by
  rw [step_of_command (hostsTurn_of_idle_or_halted hfsm) hcmd]
  exact hostExecute_idle_or_halted b hreset hfsm

/-- Settles O39: the run starts with the counter loaded, and is over where the budget is not positive. -/
theorem executeLoadsTheCounter : Obligations.ExecuteLoadsTheCounter := by
  intro s b rest hreset hfsm hcmd
  rw [step_of_execute hreset hfsm hcmd, startRun_eq]
  exact ⟨fun hpos => by rw [if_pos hpos], fun hnonpos => by rw [if_neg (Int.not_lt.2 hnonpos)]⟩

theorem reportOf_unknownOpcode {s : State} {opcode : Byte} {faultPc : Word}
    (h : s.fault = some (.unknownOpcode opcode faultPc)) :
    reportOf s = .errorUnknownOpcode opcode faultPc := by
  rw [reportOf, h]

/-- Settles O40: the command is refused with the report of the record, which stays. -/
theorem executeAfterAFaultReportsItAgain : Obligations.ExecuteAfterAFaultReportsItAgain := by
  intro s b rest opcode faultPc hreset hfsm hfault hcmd
  have hreport : reportOf { s with commands := rest } = .errorUnknownOpcode opcode faultPc :=
    reportOf_unknownOpcode hfault
  rw [step_of_command (hostsTurn_of_haltedWithError hfsm) hcmd, ← hreport]
  exact hostExecute_haltedWithError b hreset hfsm

/-- Settles O41: a power-on state is in the host's turn, and `execute` has no meaning there. -/
theorem executeBeforeResetIsRefused : Obligations.ExecuteBeforeResetIsRefused := by
  intro s b rest hpowerOn hcmd
  rw [step_of_command (hostsTurn_of_powerOn hpowerOn) hcmd]
  exact hostExecute_powerOn b hpowerOn

/-- Settles O42: of what a command can do (`hostCommand_cases`) only reset touches the control state, the record
or the counter of a faulted core. -/
theorem onlyResetLeavesTheFaultedState : Obligations.OnlyResetLeavesTheFaultedState := by
  intro s hreset hfsm hnoReset
  have hturn : HostsTurn s := hostsTurn_of_haltedWithError hfsm
  cases hcmd : s.commands with
  | nil => exact ⟨s, step_of_no_command hturn hcmd, hfsm, rfl, rfl⟩
  | cons c rest =>
    rw [step_of_command hturn hcmd]
    rcases hostCommand_answers c { s with commands := rest } with ⟨t, ht⟩ | ⟨-, hpowerOn, -⟩
    · refine ⟨t, ht, ?_⟩
      rcases hostCommand_cases ht with ⟨rfl, -⟩ | ⟨_, -, -, -, rfl⟩ | ⟨_, -, -, hne, -⟩ |
        ⟨hfsm', hfault, hcyc, -⟩
      · exact absurd hcmd (hnoReset rest)
      · exact ⟨hfsm, rfl, rfl⟩
      · exact absurd hfsm hne
      · exact ⟨hfsm'.trans hfsm, hfault, hcyc⟩
    · exact absurd (hreset.symm.trans hpowerOn) (by decide)

/-- Settles O44: `startRun` overwrites the counter. -/
theorem executeForgetsTheOldCounter : Obligations.ExecuteForgetsTheOldCounter := by
  intro s b rest c hreset hfsm hcmd
  exact ⟨_, step_of_execute hreset hfsm hcmd, step_of_execute (s := { s with cyc := c }) hreset hfsm hcmd⟩

/-! ### Reset -/

/-- Settles O46: under the policy `step` uses, reset is the state after reset beside the host's own port. -/
theorem nothingSurvivesAReset : Obligations.NothingSurvivesAReset := by
  intro s rest hturn hcmd
  rw [step_of_reset_command hturn hcmd, Config.resetPolicy, resetCore_direct_eq]
  rfl

/-- Settles O47: the two policies differ in the entry point only, which is read from the state before. -/
theorem vectorIndirectResetReadsTheVectorFirst : Obligations.VectorIndirectResetReadsTheVectorFirst :=
  fun s => ⟨wordOf_toNat _ _, rfl, rfl, fun p => cell_resetCore p s⟩

/-- Settles O48: `State.reset` holds these values. -/
theorem valuesAfterReset : Obligations.ValuesAfterReset :=
  ⟨rfl, rfl, rfl, rfl, rfl, rfl, fun _ => rfl, rfl, rfl, rfl, rfl, rfl, rfl⟩

/-! ### The host's reads and writes -/

theorem cell_setCellWord_low (a w : Word) (s : State) : cell (setCellWord a w s) a = loByte w := by
  rw [setCellWord, inc16, cell_setCell_other _ _ (ne_add_one a), cell_setCell_self]

theorem cell_setCellWord_high (a w : Word) (s : State) : cell (setCellWord a w s) (a + 1) = hiByte w := by
  rw [setCellWord, inc16, cell_setCell_self]

theorem cell_setCellWord_other {a c : Word} (w : Word) (s : State) (hlow : c ≠ a) (hhigh : c ≠ a + 1) :
    cell (setCellWord a w s) c = cell s c := by
  rw [setCellWord, inc16, cell_setCell_other _ _ hhigh, cell_setCell_other _ _ hlow]

/-- R170: the flag named, and no other. -/
theorem flagsWith_eq (f : FlagName) (v : Bool) (g : Flags) : flagsWith f v g =
    ⟨if f = .c then v else g.c, if f = .z then v else g.z, if f = .i then v else g.i,
      if f = .d then v else g.d, if f = .b then v else g.b, if f = .v then v else g.v,
      if f = .n then v else g.n⟩ := by
  cases f <;> rfl

/-- Settles O49: each write is one update and the answer; a word is two cells, low byte first. -/
theorem hostWritesChangeWhatTheyName : Obligations.HostWritesChangeWhatTheyName := by
  intro s b w a v f
  refine ⟨⟨_, rfl, rfl, ?_, fun c hc => ?_⟩, ⟨_, rfl, rfl, ?_, ?_, fun c hlow hhigh => ?_⟩,
    rfl, rfl, rfl, rfl, rfl, ?_⟩
  · rw [cell_answer, cell_setCell_self]
  · rw [cell_answer, cell_setCell_other _ _ hc]
  · rw [cell_answer, cell_setCellWord_low]
  · rw [cell_answer, cell_setCellWord_high]
  · rw [cell_answer, cell_setCellWord_other _ _ hlow hhigh]
  · rw [hostCommand, flagsWith_eq]
    rfl

/-- Settles O50: a read is an answer and nothing else. -/
theorem hostReadsChangeNothing : Obligations.HostReadsChangeNothing :=
  fun _ _ => ⟨rfl, rfl, rfl⟩

end Sys2Proof.Machine
end

section
/-! PROOFS. Runs (spec/43_execution_engine.md): what one step of a ready core can lead to, what the host is told at
the end, `execute(1)`, and the length of a run. -/

namespace Sys2Proof.Machine

open Sys2Proof.Safety

/-! ### The loop check touches the control state and the reply only -/

theorem afterInstr_cases (s : State) : afterInstr s = setFsm .fetching s ∨ afterInstr s = haltRun s ∨
    afterInstr s = answer (reportOf s) s ∨ afterInstr s = s := by
  unfold afterInstr
  split
  · split
    · exact .inl rfl
    · exact .inr (.inl rfl)
  · exact .inr (.inr (.inl rfl))
  all_goals exact .inr (.inr (.inr rfl))

theorem afterInstr_eq (s : State) :
    afterInstr s = { s with fsm := (afterInstr s).fsm, reply := (afterInstr s).reply } := by
  rcases afterInstr_cases s with h | h | h | h <;> rw [h] <;> rfl

theorem afterInstr_commands (s : State) (q : List HostCommand) :
    afterInstr { s with commands := q } = { afterInstr s with commands := q } := by
  obtain ⟨_, _, _, _, _, _, fsm, _, cyc, _, _, _, _⟩ := s
  cases fsm with
  | runningHandler => by_cases hpos : 0 < cyc <;> simp [afterInstr, hpos, setFsm, haltRun_eq]
  | haltedWithError | idle | fetching | dispatching | halted => rfl

/-! ### One step of a run -/

/-- R156: inside a run a step is the end of the run, or the instruction at `pc` with the loop check after it. -/
theorem step_fetching_cases {s t : State} (hreset : s.wasReset = true) (hfsm : s.fsm = .fetching)
    (h : step s = .next t) :
    (s.cyc ≤ 0 ∧ t = haltRun s) ∨ (Ready s ∧ ∃ u, exec (fetchInstr s) s = .next u ∧ t = afterInstr u) := by
  rcases Int.lt_or_le 0 s.cyc with hpos | hcyc
  · have hready : Ready s := ⟨hreset, hfsm, hpos⟩
    obtain ⟨u, hexec, -⟩ := exec_cases (fetchInstr s) s
    exact .inr ⟨hready, u, hexec, Host.Outcome.next.inj (h.symm.trans (step_ready_of_exec hready hexec))⟩
  · exact .inl ⟨hcyc, Host.Outcome.next.inj (h.symm.trans (step_fetching_of_nonpos hreset hfsm hcyc))⟩

/-- R182, R155, R169: the record and the report of an unknown opcode. -/
theorem step_ready_unknown {s : State} {opcode : Byte} (hready : Ready s)
    (hfetch : fetchInstr s = .unknown opcode) :
    step s = .next (answer (.errorUnknownOpcode opcode s.pc) (faulted opcode s)) := by
  have hreport : reportOf (faulted opcode s) = .errorUnknownOpcode opcode s.pc := reportOf_unknownOpcode rfl
  rw [step_ready_of_exec hready (by rw [hfetch]; exact exec_unknown_eq opcode s), ← hreport]
  exact congrArg Host.Outcome.next (afterInstr_error rfl)

/-- Only an unknown opcode at `pc` is fetched as one. -/
theorem fetchInstr_eq_unknown {s : State} {opcode : Byte} (h : fetchInstr s = .unknown opcode) :
    cell s s.pc = opcode ∧ descriptor opcode = none :=
  decodeBytes_eq_unknown h

/-- The step from `s` to `t` ran an instruction and the run goes on (R158). -/
structure GoesOn (s t : State) : Prop where
  fsm : t.fsm = .fetching
  fault : t.fault = s.fault
  reply : t.reply = s.reply
  cyc_pos : 0 < t.cyc
  cyc_le : t.cyc + 2 ≤ s.cyc

/-- The step from `s` to `t` ran an instruction that used up the counter (R158, R169). -/
structure RunsOut (s t : State) : Prop where
  fsm : t.fsm = .halted
  fault : t.fault = s.fault
  reply : t.reply = some .ok
  cyc_nonpos : t.cyc ≤ 0
  le_cyc : s.cyc ≤ t.cyc + 6

/-- The step from `s` to `t` met an unknown opcode (R182, R169). -/
structure MeetsUnknown (s t : State) : Prop where
  noDescriptor : descriptor (cell s s.pc) = none
  fsm : t.fsm = .haltedWithError
  fault : t.fault = some (.unknownOpcode (cell s s.pc) s.pc)
  reply : t.reply = some (.errorUnknownOpcode (cell s s.pc) s.pc)
  cyc : t.cyc = s.cyc - 1

/-- The three ways a step of a ready core can end, and what all three keep. -/
theorem step_ready_cases {s : State} (hready : Ready s) : ∃ t, step s = .next t ∧
    t.wasReset = true ∧ t.commands = s.commands ∧ (s.mem.wf = true → t.mem.wf = true) ∧
    (GoesOn s t ∨ RunsOut s t ∨ MeetsUnknown s t) := by
  obtain ⟨u, hexec, hreset, hcmd, hreply, -, -, hmem, ⟨hfsm, hfault, hle, hge⟩ | ⟨opcode, hfetch, rfl⟩⟩ :=
    exec_cases (fetchInstr s) s
  · have hreset' : u.wasReset = true := hreset.trans hready.1
    refine ⟨_, step_ready_of_exec hready hexec, ?_⟩
    rcases Int.lt_or_le 0 u.cyc with hpos | hcyc
    · rw [afterInstr_running_of_pos hfsm hpos]
      exact ⟨hreset', hcmd, hmem, .inl ⟨rfl, hfault, hreply, hpos, hle⟩⟩
    · rw [afterInstr_running_of_nonpos hfsm hcyc]
      exact ⟨hreset', hcmd, hmem, .inr (.inl ⟨rfl, hfault, rfl, hcyc, hge⟩)⟩
  · obtain ⟨rfl, hnone⟩ := fetchInstr_eq_unknown hfetch
    exact ⟨_, step_ready_unknown hready hfetch, hready.1, rfl, id, .inr (.inr ⟨hnone, rfl, rfl, rfl, rfl⟩)⟩

/-! ### The statements on one step -/

/-- Settles O34: what the three bytes decode to is what is fetched, and the fetch gives well-formed
instructions only. -/
theorem stepRunsTheDecodedInstruction : Obligations.StepRunsTheDecodedInstruction := by
  intro s i rest hready hdecode
  obtain rfl : fetchInstr s = i := fetchInstr_of_decode hdecode
  obtain ⟨t, hexec, -⟩ := exec_cases (fetchInstr s) s
  exact ⟨wellFormed_decodeBytes _ _ _, t, hexec, step_ready_of_exec hready hexec⟩

/-- Settles O37: without budget the step is `haltRun`; with budget it ends in one of the three ways of
`step_ready_cases`. -/
theorem endOfARunIsReportedToTheHost : Obligations.EndOfARunIsReportedToTheHost := by
  intro s t hreset hfsm h
  rcases step_fetching_cases hreset hfsm h with ⟨-, rfl⟩ | ⟨hready, -⟩
  · exact .inr (.inl ⟨rfl, rfl⟩)
  · obtain ⟨u, hu, -, -, -, hcases⟩ := step_ready_cases hready
    obtain rfl : u = t := Host.Outcome.next.inj (hu.symm.trans h)
    rcases hcases with hon | hout | hunknown
    · exact .inl ⟨hon.fsm, hon.reply⟩
    · exact .inr (.inl ⟨hout.fsm, hout.reply⟩)
    · exact .inr (.inr ⟨hunknown.fsm, _, _, hunknown.fault, hunknown.reply⟩)

/-- Settles O38: a byte without a descriptor is fetched as the unknown opcode it is. -/
theorem unknownOpcodeIsRecordedAndReported : Obligations.UnknownOpcodeIsRecordedAndReported := by
  intro s hready hnone
  have hfetch : fetchInstr s = .unknown (cell s s.pc) := decodeBytes_unknown hnone _ _
  exact ⟨_, step_ready_unknown hready hfetch, rfl, rfl, rfl⟩

/-- Settles O51: between runs the step is `hostTurn`; inside one, neither the instruction nor the loop check
looks at the queue. -/
theorem hostActsOnlyBetweenRuns : Obligations.HostActsOnlyBetweenRuns := by
  refine ⟨fun s => step_of_no_command, fun s c rest => step_of_command, fun s q hready => ?_⟩
  obtain ⟨t, hexec, -, hcmd, -⟩ := exec_cases (fetchInstr s) s
  have hready' : Ready { s with commands := q } := hready
  refine ⟨_, step_ready_of_exec hready hexec, ?_, ?_⟩
  · rw [afterInstr_eq]
    exact hcmd
  · rw [step_ready_of_exec hready' (exec_commands q hexec), afterInstr_commands]

/-! ### Runs of several steps -/

theorem core_run_succ {s u : State} (h : step s = .next u) (n : Nat) :
    Host.Core.run core (n + 1) s = Host.Core.run core n u :=
  run_succ_of_step (M := core) h n

/-- R151: the state in which `execute` hands over to the core. -/
theorem step_of_execute_pos {s : State} {b : Budget} {rest : List HostCommand} (hreset : s.wasReset = true)
    (hfsm : s.fsm = .idle ∨ s.fsm = .halted) (hcmd : s.commands = .execute b :: rest) (hpos : 0 < b.toInt) :
    step s = .next { s with commands := rest, cyc := b.toInt, fsm := .fetching } :=
  (executeLoadsTheCounter s b rest hreset hfsm hcmd).1 hpos

/-- Settles O43: every handler charges at least 2 cycles, so a counter of 1 is used up by the first; an unknown
opcode ends the run as well. -/
theorem executeOneIsASingleStep : Obligations.ExecuteOneIsASingleStep := by
  intro s rest hreset hfsm hcmd
  have hstart : step s = .next { s with commands := rest, cyc := 1, fsm := .fetching } :=
    step_of_execute_pos hreset hfsm hcmd (by decide)
  have hready : Ready { s with commands := rest, cyc := 1, fsm := .fetching } := ⟨hreset, rfl, Int.one_pos⟩
  obtain ⟨u, hexec, -⟩ := exec_cases (fetchInstr s) { s with commands := rest, cyc := 1, fsm := .fetching }
  have hstep := step_ready_of_exec hready hexec
  refine ⟨u, afterInstr u, hexec, ?_, ?_, afterInstr_eq u⟩
  · exact (core_run_succ hstart 1).trans (core_run_succ hstep 0)
  · obtain ⟨t, ht, -, -, -, hcases⟩ := step_ready_cases hready
    obtain rfl : t = afterInstr u := Host.Outcome.next.inj (ht.symm.trans hstep)
    rcases hcases with hon | hout | hunknown
    · have hpos := hon.cyc_pos
      have hle : (afterInstr u).cyc + 2 ≤ 1 := hon.cyc_le
      omega
    · exact .inl hout.fsm
    · exact .inr hunknown.fsm

/-- `t` is the end of a run of at most `n` steps from `s` that `EveryRunEnds` speaks of. -/
def RunEnd (s t : State) (n : Nat) : Prop :=
  Host.Core.run core n s = .next t ∧ t.commands = s.commands ∧
    ((EndedNormally t ∧ -5 ≤ t.cyc ∧ t.cyc ≤ 0) ∨ (EndedInFault t ∧ 0 ≤ t.cyc))

/-- A run that ends after one more step ends. -/
theorem RunEnd.of_step {s u t : State} {n : Nat} (hstep : step s = .next u) (hcmd : u.commands = s.commands)
    (hend : RunEnd u t n) : RunEnd s t (n + 1) := by
  obtain ⟨hrun, hcmd', hways⟩ := hend
  exact ⟨(core_run_succ hstep n).trans hrun, hcmd'.trans hcmd, hways⟩

/-- R165: a step that goes on costs at least two cycles, so there are at most half as many as cycles left. -/
theorem exists_runEnd (k : Nat) : ∀ s, Ready s → s.cyc ≤ k →
    ∃ (n : Nat) (t : State), (n : Int) ≤ (s.cyc + 1) / 2 ∧ RunEnd s t n := by
  induction k with
  | zero =>
    rintro s ⟨-, -, hpos⟩ hle
    omega
  | succ k ih =>
    intro s hready hle
    have hpos : 0 < s.cyc := hready.2.2
    obtain ⟨u, hstep, hreset, hcmd, -, hon | hout | hunknown⟩ := step_ready_cases hready
    · have hless := hon.cyc_le
      obtain ⟨n, t, hn, hend⟩ := ih u ⟨hreset, hon.fsm, hon.cyc_pos⟩ (by omega)
      exact ⟨n + 1, t, by omega, hend.of_step hstep hcmd⟩
    · have hover := hout.le_cyc
      have hend : RunEnd u u 0 := ⟨rfl, rfl, .inl ⟨hout.fsm, by omega, hout.cyc_nonpos⟩⟩
      exact ⟨1, u, by omega, hend.of_step hstep hcmd⟩
    · have hcyc := hunknown.cyc
      have hend : RunEnd u u 0 := ⟨rfl, rfl, .inr ⟨hunknown.fsm, by omega⟩⟩
      exact ⟨1, u, by omega, hend.of_step hstep hcmd⟩

/-- Settles O55, by induction on a bound of the counter (`exists_runEnd`). -/
theorem everyRunEnds : Obligations.EveryRunEnds :=
  fun s hready => exists_runEnd s.cyc.toNat s hready (Int.self_le_toNat s.cyc)

end Sys2Proof.Machine
end

section
/-! PROOFS. The invariant (spec/10_state.md section 7): it holds after reset, every step keeps it, and under it a
step is refused in one case only. -/

namespace Sys2Proof.Machine

open Sys2Proof.Safety

/-! ### Establishing the invariant -/

/-- The control states without a fault, each with the sign its counter has. -/
def RestsOrRuns (s : State) : Prop :=
  (s.fsm = .idle ∧ s.cyc = 0) ∨ (s.fsm = .fetching ∧ 0 < s.cyc) ∨ (s.fsm = .halted ∧ s.cyc ≤ 0)

/-- Without a fault every clause is about the record being empty or about the sign of the counter in the one
control state the core is in; the others speak of control states it is not in. -/
theorem inv_of_noFault {s : State} (hmem : s.mem.wf = true)
    (hrange : Config.cycMin ≤ s.cyc ∧ s.cyc ≤ Config.cycMax) (hfault : s.fault = none)
    (hfsm : RestsOrRuns s) : Inv s := by
  rcases hfsm with ⟨hfsm, hcyc⟩ | ⟨hfsm, hcyc⟩ | ⟨hfsm, hcyc⟩ <;>
    constructor <;> simp_all

/-- In the fault the clauses are those on the record; the ones on the other control states are empty. -/
theorem inv_of_fault {s : State} {opcode : Byte} {faultPc : Word} (hmem : s.mem.wf = true)
    (hrange : Config.cycMin ≤ s.cyc ∧ s.cyc ≤ Config.cycMax) (hfsm : s.fsm = .haltedWithError)
    (hfault : s.fault = some (.unknownOpcode opcode faultPc)) (hnone : descriptor opcode = none)
    (hcyc : 0 ≤ s.cyc) : Inv s := by
  constructor <;> simp_all

/-- The invariant speaks of five fields; of the memory it says the canonical form only. -/
theorem inv_of_same {s t : State} (hinv : Inv s) (hfsm : t.fsm = s.fsm) (hfault : t.fault = s.fault)
    (hcyc : t.cyc = s.cyc) (hreset : t.wasReset = s.wasReset) (hmem : t.mem.wf = true) : Inv t := by
  obtain ⟨-, cycRange, betweenInstrs, faultIff, faultOpcode, idleCyc, fetchingCyc, haltedCyc, faultCyc⟩ := hinv
  rw [← hcyc] at cycRange idleCyc fetchingCyc haltedCyc faultCyc
  rw [← hreset] at betweenInstrs faultIff faultOpcode idleCyc fetchingCyc haltedCyc faultCyc
  rw [← hfsm] at betweenInstrs faultIff idleCyc fetchingCyc haltedCyc faultCyc
  rw [← hfault] at faultIff faultOpcode
  exact ⟨hmem, cycRange, betweenInstrs, faultIff, faultOpcode, idleCyc, fetchingCyc, haltedCyc, faultCyc⟩

/-! ### Using the invariant -/

/-- R32: outside `HaltedWithError` there is no record. -/
theorem fault_eq_none_of_inv {s : State} (hinv : Inv s) (hreset : s.wasReset = true)
    (hfsm : s.fsm ≠ .haltedWithError) : s.fault = none :=
  by_contra fun hfault => hfsm ((hinv.faultIff hreset).1 hfault)

/-- A state between two steps is the host's, or a core ready to run an instruction. -/
theorem hostsTurn_or_ready_of_inv {s : State} (hinv : Inv s) : HostsTurn s ∨ Ready s := by
  rcases turnOf_cases s with ⟨hturn, -⟩ | ⟨-, hreset, hfsm⟩ | ⟨-, hreset, hinside⟩
  · exact .inl hturn
  · exact .inr ⟨hreset, hfsm, hinv.fetchingCyc hreset hfsm⟩
  · obtain ⟨hdispatching, hrunning⟩ := hinv.betweenInstrs hreset
    exact absurd hinside (not_or.2 ⟨hdispatching, hrunning⟩)

/-- R33, R166: a budget is a signed 32-bit value. -/
theorem budget_toInt_range (b : Budget) : Config.cycMin ≤ b.toInt ∧ b.toInt ≤ Config.cycMax := by
  have hlow := b.le_toInt
  have hhigh := b.toInt_lt
  simp only [Config.cycMin, Config.cycMax]
  omega

/-! ### What keeps it -/

/-- The state after reset, whatever stands in the host's own port. -/
theorem inv_reset (q : List HostCommand) (r : Option HostReply) :
    Inv { State.reset with commands := q, reply := r } :=
  inv_of_noFault rfl ⟨(by decide : Config.cycMin ≤ 0), (by decide : 0 ≤ Config.cycMax)⟩ rfl (.inl ⟨rfl, rfl⟩)

theorem inv_startRun {s : State} (b : Budget) (hmem : s.mem.wf = true) (hfault : s.fault = none) :
    Inv (startRun b s) := by
  rw [startRun_eq]
  split
  · next hpos => exact inv_of_noFault hmem (budget_toInt_range b) hfault (.inr (.inl ⟨rfl, hpos⟩))
  · next hnonpos =>
    exact inv_of_noFault hmem (budget_toInt_range b) hfault (.inr (.inr ⟨rfl, Int.not_lt.1 hnonpos⟩))

/-- Every host command keeps the invariant: reset and a new run establish it, the rest keeps the five fields. -/
theorem hostCommand_keeps_inv {c : HostCommand} {s t : State} (hinv : Inv s) (h : hostCommand c s = .next t) :
    Inv t := by
  rcases hostCommand_cases h with ⟨-, rfl⟩ | ⟨b, -, -, -, rfl⟩ | ⟨b, -, hreset, hfsm, rfl⟩ |
    ⟨hfsm, hfault, hcyc, hreset, -, hmem⟩
  · exact inv_reset s.commands (some .done)
  · exact inv_of_same hinv rfl rfl rfl rfl hinv.memWf
  · exact inv_startRun b hinv.memWf (fault_eq_none_of_inv hinv hreset hfsm)
  · exact inv_of_same hinv hfsm hfault hcyc hreset (hmem hinv.memWf)

/-- An instruction and its loop check keep the invariant, in each of the three ways they can end. -/
theorem coreStep_keeps_inv {s t : State} (hinv : Inv s) (hready : Ready s) (h : step s = .next t) : Inv t := by
  obtain ⟨u, hu, -, -, hmem, hcases⟩ := step_ready_cases hready
  obtain rfl : u = t := Host.Outcome.next.inj (hu.symm.trans h)
  obtain ⟨hreset, hfsm, hpos⟩ := hready
  have hfault : s.fault = none := fault_eq_none_of_inv hinv hreset (by rw [hfsm]; decide)
  have hmem' : u.mem.wf = true := hmem hinv.memWf
  have hmax : s.cyc ≤ Config.cycMax := hinv.cycRange.2
  have hmin : Config.cycMin ≤ -5 := by decide
  rcases hcases with hon | hout | hunknown
  · have hcyc := hon.cyc_pos
    have hle := hon.cyc_le
    exact inv_of_noFault hmem' ⟨by omega, by omega⟩ (hon.fault.trans hfault) (.inr (.inl ⟨hon.fsm, hcyc⟩))
  · have hcyc := hout.cyc_nonpos
    have hle := hout.le_cyc
    exact inv_of_noFault hmem' ⟨by omega, by omega⟩ (hout.fault.trans hfault) (.inr (.inr ⟨hout.fsm, hcyc⟩))
  · have hcyc := hunknown.cyc
    exact inv_of_fault hmem' ⟨by omega, by omega⟩ hunknown.fsm hunknown.fault hunknown.noDescriptor (by omega)

/-! ### The statements -/

/-- Settles O52: the core is idle with an empty counter. -/
theorem invariantAfterReset : Obligations.InvariantAfterReset :=
  inv_reset [] none

/-- Settles O53: the step is a host command, nothing at all, or an instruction of a ready core. -/
theorem everyStepKeepsTheInvariant : Obligations.EveryStepKeepsTheInvariant := by
  intro s t hinv h
  rcases hostsTurn_or_ready_of_inv hinv with hturn | hready
  · cases hcmd : s.commands with
    | nil =>
      obtain rfl := Host.Outcome.next.inj ((step_of_no_command hturn hcmd).symm.trans h)
      exact hinv
    | cons c rest =>
      rw [step_of_command hturn hcmd] at h
      have hinv' : Inv { s with commands := rest } := inv_of_same hinv rfl rfl rfl rfl hinv.memWf
      exact hostCommand_keeps_inv hinv' h
  · exact coreStep_keeps_inv hinv hready h

/-- Settles O54: a ready core always answers, and of the host's commands all but one do. -/
theorem onlyExecuteBeforeResetStopsTheMachine : Obligations.OnlyExecuteBeforeResetStopsTheMachine := by
  intro s hinv
  rcases hostsTurn_or_ready_of_inv hinv with hturn | hready
  · cases hcmd : s.commands with
    | nil => exact .inl ⟨s, step_of_no_command hturn hcmd⟩
    | cons c rest =>
      rw [step_of_command hturn hcmd]
      refine (hostCommand_answers c _).imp id ?_
      rintro ⟨hrefused, hpowerOn, b, rfl⟩
      exact ⟨hrefused, hpowerOn, b, rest, rfl⟩
  · obtain ⟨t, hstep, -⟩ := step_ready_cases hready
    exact .inl ⟨t, hstep⟩

end Sys2Proof.Machine
end

section
/-! PROOFS. What a run cannot write (spec/10_state.md sections 1, 3 and 5): `X`, `Y`, the five inert flags, and
memory outside the stack page. -/

namespace Sys2Proof.Machine

open Sys2Proof.Safety

/-- What `RunsWriteOnlyTheStackPage` says of two states; and the host's queue is the same in both. -/
structure RunFrame (s t : State) : Prop where
  x : t.x = s.x
  y : t.y = s.y
  flags : t.flags = { s.flags with z := t.flags.z, n := t.flags.n }
  commands : t.commands = s.commands
  cells : ∀ a : Word, a.toNat < 0x0100 ∨ 0x01FF < a.toNat → cell t a = cell s a

theorem RunFrame.refl (s : State) : RunFrame s s := ⟨rfl, rfl, rfl, rfl, fun _ _ => rfl⟩

theorem RunFrame.trans {s u t : State} (h : RunFrame s u) (h' : RunFrame u t) :
    RunFrame s t where
  x := h'.x.trans h.x
  y := h'.y.trans h.y
  flags := by
    rw [h'.flags, h.flags]
  commands := h'.commands.trans h.commands
  cells := fun a ha => (h'.cells a ha).trans (h.cells a ha)

theorem ne_stackCell {a : Word} (h : a.toNat < 0x0100 ∨ 0x01FF < a.toNat) (n : Nat) : a ≠ stackCell n := by
  rintro rfl
  rw [stackCell_toNat] at h
  omega

/-- R140: a jump writes the stack page, and no other instruction writes memory at all. -/
theorem exec_runFrame {i : Instr} {s u : State} (h : exec i s = .next u) : RunFrame s u := by
  rcases exec_next_cases h with ⟨-, rfl⟩ | ⟨target, -, rfl⟩ | ⟨opcode, -, rfl⟩
  · exact ⟨rfl, rfl, rfl, rfl, fun a _ => cell_loaded _ _ _ s a⟩
  · exact ⟨rfl, rfl, rfl, rfl, fun a ha => cell_jumped_other target s (ne_stackCell ha _) (ne_stackCell ha _)⟩
  · exact ⟨rfl, rfl, rfl, rfl, fun a _ => cell_faulted opcode s a⟩

theorem afterInstr_runFrame (s : State) : RunFrame s (afterInstr s) := by
  rw [afterInstr_eq]
  exact ⟨rfl, rfl, rfl, rfl, fun a _ => cell_congr rfl a⟩

theorem haltRun_runFrame (s : State) : RunFrame s (haltRun s) :=
  ⟨rfl, rfl, rfl, rfl, fun a _ => cell_congr rfl a⟩

/-- Without a command pending a step changes nothing, or is one of a run. -/
theorem step_runFrame {s t : State} (hcmd : s.commands = []) (h : step s = .next t) : RunFrame s t := by
  rcases turnOf_cases s with ⟨hturn, -⟩ | ⟨-, hreset, hfsm⟩ | ⟨hturn, -⟩
  · obtain rfl := Host.Outcome.next.inj ((step_of_no_command hturn hcmd).symm.trans h)
    exact .refl s
  · rcases step_fetching_cases hreset hfsm h with ⟨-, rfl⟩ | ⟨-, u, hexec, rfl⟩
    · exact haltRun_runFrame s
    · exact (exec_runFrame hexec).trans (afterInstr_runFrame u)
  · rw [step, hturn] at h
    cases h

/-- Settles O56, by induction on the number of steps: each is within the frame, and the frame is transitive. -/
theorem runsWriteOnlyTheStackPage : Obligations.RunsWriteOnlyTheStackPage := by
  intro n s t hcmd hrun
  have hframe : RunFrame s t := by
    induction n generalizing s with
    | zero =>
      obtain rfl := Host.Outcome.next.inj hrun
      exact .refl s
    | succ n ih =>
      obtain ⟨u, hstep, hrest⟩ := run_succ_cases hrun
      have hfirst : RunFrame s u := step_runFrame hcmd hstep
      exact hfirst.trans (ih u (hfirst.commands.trans hcmd) hrest)
  exact ⟨hframe.x, hframe.y, hframe.flags, hframe.cells⟩

end Sys2Proof.Machine
end
